-- ==== Sys2Proof/Word.lean ====
section
/-! DEFINITION. The word types of the XTS-AES engine: a byte, a 32-bit bus word (rule R21) and a
16-byte block (rule R9). -/

namespace Sys2Proof

/-- One byte of a byte string (rule R9). -/
abbrev Byte := BitVec 8

/-- A 32-bit register, bus word or command word (rules R21, R61, R80). -/
abbrev Word := BitVec 32

/-- A block, `Bytes(16)`, held as its little-endian number `le(S)` (rule R9): byte `k` of the block is
bits `8k+7 : 8k`.  The bytewise exclusive OR of two blocks is then the exclusive OR of the numbers. -/
abbrev Block := BitVec 128

end Sys2Proof
end

