-- ==== Sys2Proof/Machine/Bytes.lean ====
section
/-! DEFINITION. Byte strings (rule R9) and the little-endian byte lanes of the bus (rule R64). -/

namespace Sys2Proof.Machine

/-- `le(S) = Σ_k S[k]·2^(8k)`: byte 0 is least significant (rule R9). -/
def leNat : List Byte → Nat
  | [] => 0
  | b :: bs => b.toNat + 256 * leNat bs

/-- The `n`-byte string whose `le` is `v mod 2^(8n)` (rule R9, `le⁻¹`). -/
def leBytes : Nat → Nat → List Byte
  | 0, _ => []
  | n + 1, v => BitVec.ofNat 8 v :: leBytes n (v / 256)

/-- The four byte lanes of a bus word, lowest offset first (rule R64). -/
def wordBytes (w : Word) : List Byte := leBytes 4 w.toNat

/-- The bus word whose byte lanes are the given bytes, missing bytes being 0 (rules R64, R91). -/
def wordOfBytes (bs : List Byte) : Word := BitVec.ofNat 32 (leNat bs)

/-- The 16 bytes of a block, byte 0 first (rule R9). -/
def blockBytes (b : Block) : List Byte := leBytes 16 b.toNat

/-- The block whose bytes are the given ones (rule R9). -/
def blockOfBytes (bs : List Byte) : Block := BitVec.ofNat 128 (leNat bs)

/-- The byte string that consecutive registers hold, first register first (rules R34, R35, R37). -/
def registerBytes {n : Nat} (ws : Vector Word n) : List Byte := ws.toList.flatMap wordBytes

/-- `S[a..b)`, the bytes with indices `a` to `b-1` (rule R9). -/
def sliceBytes (S : List Byte) (a b : Nat) : List Byte := (S.take b).drop a

end Sys2Proof.Machine
end

