-- ==== Sys2Proof/Syntax.lean ====
section
/-! DEFINITION. The commands of the opcode map (rule R82): one constructor per row of
`spec/opcode_table.json`.  No command word carries an operand (rule R83). -/

namespace Sys2Proof

/-- The seven legal commands (rules R82, R88). -/
inductive Instr where
  /-- `XTS.ENC`: encrypt one data unit (rule R158). -/
  | xtsEnc
  /-- `XTS.DEC`: decrypt one data unit (rule R159). -/
  | xtsDec
  /-- `AES.ENC k1`: encrypt one block under KEY1 (rule R124). -/
  | aesEncK1
  /-- `AES.ENC k2`: encrypt one block under KEY2 (rule R124). -/
  | aesEncK2
  /-- `AES.DEC k1`: decrypt one block under KEY1 (rule R125). -/
  | aesDecK1
  /-- `AES.DEC k2`: decrypt one block under KEY2 (rule R125). -/
  | aesDecK2
  /-- `GF.MULX`: multiply TWEAK by α (rule R104). -/
  | gfMulx
  deriving DecidableEq, Repr

end Sys2Proof
end

