-- ==== Sys2Proof/Config.lean ====
section
/-! DEFINITION. The implementation parameters of rule R7 and the free values the spec leaves open
(`93_implementation_defined.md` U1, U4, U5, U6, U7, U8, U9; log entries 2, 3 and 10).  A free value is an
opaque constant with no body: no proof can know it, so a claim that mentions it holds for every value. -/

namespace Sys2Proof

/-- An AES key: 16 bytes (AES-128) or 32 bytes (AES-256), little-endian, key byte `k` at bits
`8k+7 : 8k` (rules R3, R67).  No other size exists for the primitive. -/
inductive AesKey where
  | aes128 (k : BitVec 128)
  | aes256 (k : BitVec 256)
  deriving DecidableEq, Repr

/-- The AES primitive of rule R120: the two block functions `AESEnc(K, B)` and `AESDec(K, B)`. -/
structure BlockCipher where
  enc : AesKey → Block → Block
  dec : AesKey → Block → Block

/-- The one law of rule R120 (a): for every key each function undoes the other.  Laws (b) and (c) hold
by the types: the functions take the key and the block, byte `k` at index `k`, and nothing else. -/
def BlockCipher.Lawful (p : BlockCipher) : Prop :=
  ∀ (K : AesKey) (B : Block), p.dec K (p.enc K B) = B ∧ p.enc K (p.dec K B) = B

/-- `P_WINDOW`, the size of the register window in bytes (rules R7, R21). -/
def Config.P_WINDOW : Nat := 0x4000

/-- The values an implementation may pick for `P_DU_MAX`, the largest accepted data unit: 16 to 4096 (rule
R7).  The machine takes one as an argument, `State.duMax`. -/
abbrev Config.DuMax := { n : Nat // 16 ≤ n ∧ n ≤ 4096 }

/-- The default of that argument, which is this hardware's value: 4096 (rules R7, R38). -/
def Config.P_DU_MAX : Config.DuMax := ⟨4096, by decide⟩

/-- `P_ID`, the value of the ID register (rules R7, R22). -/
def Config.P_ID : Word := 0x58545331#32

/-- Which multiple of 0x4000 the platform placed the window at: OPEN (rule R7, U6). -/
opaque Config.windowIndex : Nat

/-- `P_BASE`: any bus address aligned to 0x4000 (rule R7, U6). -/
def Config.P_BASE : Nat := 0x4000 * Config.windowIndex

/-- `P_IRQ`: the platform interrupt input that `irq` drives, OPEN (rule R192, U7). -/
opaque Config.P_IRQ : Nat

/-- `P_LAT`: the cycles from acceptance to completion, OPEN.  It is a number, so it is finite, and its
arguments are the command word, LEN, K1LEN and K2LEN: nothing secret (rules R226, R227, U5). -/
opaque Config.P_LAT : Word → Word → BitVec 2 → BitVec 2 → Nat

/-- The byte that a DIN or DOUT byte not written since reset holds: a draw fixed at reset (rule R48, U1).
The first argument counts the resets, so that every reset is a fresh draw (U3); the second is the
byte's window offset. -/
opaque Config.bufferDraw : Nat → Nat → Byte

/-- The word a host read of DOUT returns while BUSY = 1, drawn afresh for each read (rule R224, U4); the
argument counts those reads. -/
opaque Config.busyDoutDraw : Nat → Word

end Sys2Proof
end

