-- ==== Sys2Proof/Machine/Bus.lean ====
section
/-! DEFINITION. What the host agent can do (rules R11, R15, R90) and whose turn it is: the types that
State holds of the world outside the engine. -/

namespace Sys2Proof.Machine

/-- One access on the bus port: the window offset `addr - P_BASE`, the width in bytes, and the value for
a write (rules R11, R61). -/
structure Access where
  off   : Nat
  width : Nat
  write : Option Word
  deriving DecidableEq, Repr

/-- The value a host write stores: a number, or `<value read>`, the last word the host read (rules R90,
R91 `copy`). -/
inductive HostValue where
  | imm (v : Word)
  | lastRead
  deriving DecidableEq, Repr

/-- A host program: the statements of rule R90, run in order.  `bus` is an access of any width and offset
at all, which the notation of rule R90 cannot write and the bus can deliver (rules R62, R189; DESIGN CHOICE,
safe: log entry 14). -/
inductive HostProgram where
  /-- The program has ended. -/
  | done
  /-- `wr OFF, VAL`. -/
  | wr (off : Nat) (val : HostValue) (rest : HostProgram)
  /-- `rd OFF [== VAL]`. -/
  | rd (off : Nat) (expect : Option Word) (rest : HostProgram)
  /-- `poll OFF, MASK, VAL`. -/
  | poll (off : Nat) (mask val : Word) (rest : HostProgram)
  /-- `repeat N { BODY }`. -/
  | rep (n : Nat) (body rest : HostProgram)
  /-- An access of any width at any offset. -/
  | bus (a : Access) (rest : HostProgram)
  deriving DecidableEq, Repr

/-- The statements of the first program, then those of the second. -/
def HostProgram.append : HostProgram → HostProgram → HostProgram
  | .done, q => q
  | .wr o v r, q => .wr o v (r.append q)
  | .rd o e r, q => .rd o e (r.append q)
  | .poll o m v r, q => .poll o m v (r.append q)
  | .rep n b r, q => .rep n b (r.append q)
  | .bus a r, q => .bus a (r.append q)

/-- Who takes the next step (rules R15, R210, R221).  The bus delivers the host's accesses one at a time
(rule R71); the engine's completion falls at any finite time after acceptance (rule R227), so the
order of the two is data; the reset input can be asserted at any time (rule R211). -/
inductive Turn where
  | host
  | engine
  | reset
  deriving DecidableEq, Repr

end Sys2Proof.Machine
end

