-- ==== Sys2Proof/WellFormed.lean ====
section
/-! DEFINITION. Well-formedness: of a command (no operand, so nothing to check: rule R83), of a host
access (rule R61) and of a host program (rule R90). -/

namespace Sys2Proof

/-- A command has no operand field (rule R83): every constructor is well-formed. -/
def Instr.wellFormed : Instr → Bool
  | .xtsEnc => true
  | .xtsDec => true
  | .aesEncK1 => true
  | .aesEncK2 => true
  | .aesDecK1 => true
  | .aesDecK2 => true
  | .gfMulx => true

/-- The access is 32 bits wide (rule R61). -/
def Machine.Access.widthOk (a : Machine.Access) : Bool := a.width == 4

/-- The offset is a multiple of 4 (rule R61). -/
def Machine.Access.aligned (a : Machine.Access) : Bool := a.off % 4 == 0

/-- The offset lies in the window, `0 ≤ offset < 0x4000` (rule R61). -/
def Machine.Access.inWindow (a : Machine.Access) : Bool := decide (a.off < Config.P_WINDOW)

/-- Every host access is a 32-bit access at a window offset that is a multiple of 4 (rule R61). -/
def Machine.Access.wellFormed (a : Machine.Access) : Bool := a.widthOk && a.aligned && a.inWindow

/-- Every access of the program is one that rule R61 allows. -/
def Machine.HostProgram.wellFormed : Machine.HostProgram → Bool
  | .done => true
  | .wr o _ r => (Machine.Access.mk o 4 none).wellFormed && r.wellFormed
  | .rd o _ r => (Machine.Access.mk o 4 none).wellFormed && r.wellFormed
  | .poll o _ _ r => (Machine.Access.mk o 4 none).wellFormed && r.wellFormed
  | .rep _ b r => b.wellFormed && r.wellFormed
  | .bus a r => a.wellFormed && r.wellFormed

end Sys2Proof
end

