-- ==== Sys2Proof/Decode.lean ====
section
/-! DEFINITION. The command word: its fields (rule R81), its legality (rule R84), the opcode map and
decoding (rules R82, R85, R87), and encoding (rule R88). -/

namespace Sys2Proof

/-- OP, bits 3:0 (rule R81). -/
def opField (c : Word) : BitVec 4 := c.extractLsb' 0 4

/-- KEYSEL, bit 4 (rule R81). -/
def keySelField (c : Word) : Bool := c.getLsbD 4

/-- RSVD, bits 31:5 (rule R81). -/
def rsvdField (c : Word) : BitVec 27 := c.extractLsb' 5 27

/-- The legality predicate of rule R84. -/
def legal (c : Word) : Bool :=
  rsvdField c == 0#27
    && (opField c == 1#4 || opField c == 2#4 || opField c == 3#4 || opField c == 4#4 || opField c == 5#4)
    && (!keySelField c || opField c == 3#4 || opField c == 4#4)

/-- A row of the opcode map of rule R82: it is selected when `(c & mask) = match`.  The two AES rows leave
KEYSEL free: `key1` is their command when KEYSEL = 0 and `key2` when KEYSEL = 1. -/
structure OpcodeRow where
  pattern : Word
  mask    : Word
  key1    : Instr
  key2    : Instr
  deriving DecidableEq, Repr

/-- The opcode map, row by row (rule R82). -/
def opcodeMap : List OpcodeRow :=
  [ ⟨0x00000001#32, 0xFFFFFFFF#32, .xtsEnc,   .xtsEnc⟩,
    ⟨0x00000002#32, 0xFFFFFFFF#32, .xtsDec,   .xtsDec⟩,
    ⟨0x00000003#32, 0xFFFFFFEF#32, .aesEncK1, .aesEncK2⟩,
    ⟨0x00000004#32, 0xFFFFFFEF#32, .aesDecK1, .aesDecK2⟩,
    ⟨0x00000005#32, 0xFFFFFFFF#32, .gfMulx,   .gfMulx⟩ ]

/-- Why bytes are no command. -/
inductive DecodeError where
  /-- The word matches no row of the opcode map (rule R85): the engine completes it with ILLEGAL_CMD. -/
  | illegalCommand (c : Word)
  /-- Fewer than the four bytes of a command word (rule R80). -/
  | truncated
  deriving DecidableEq, Repr

/-- Decoding of a command word: total, and every word is one of the seven commands or illegal (rules R82,
R85, R87). -/
def decode (c : Word) : Except DecodeError Instr :=
  match opcodeMap.find? (fun r => c &&& r.mask == r.pattern) with
  | some r => .ok (if keySelField c then r.key2 else r.key1)
  | none => .error (.illegalCommand c)

/-- Decoding of bytes laid out in the bus's byte lanes, lowest offset first (rules R64, R80). -/
def decodeBytes : List Byte → Except DecodeError (Instr × List Byte)
  | b0 :: b1 :: b2 :: b3 :: rest =>
    match decode (Machine.wordOfBytes [b0, b1, b2, b3]) with
    | .ok i => .ok (i, rest)
    | .error e => .error e
  | _ => .error .truncated

/-- The command word of each command (rule R88). -/
def encode : Instr → Word
  | .xtsEnc => 0x00000001#32
  | .xtsDec => 0x00000002#32
  | .aesEncK1 => 0x00000003#32
  | .aesEncK2 => 0x00000013#32
  | .aesDecK1 => 0x00000004#32
  | .aesDecK2 => 0x00000014#32
  | .gfMulx => 0x00000005#32

/-- The bytes of a command's word in the bus's byte lanes (rule R64). -/
def encodeBytes (i : Instr) : List Byte := Machine.wordBytes (encode i)

/-- The 32-bit command word of a table word of `nbits` bits, every bit above them 0. -/
def commandWordOf (nbits w : Nat) : Word := BitVec.ofNat 32 (w % 2 ^ nbits)

/-- What the decoder reads from an opcode-table word, laid out in the bus's byte lanes. -/
def decodeTableWord (nbits w : Nat) : Option Instr :=
  match decodeBytes (Machine.wordBytes (commandWordOf nbits w)) with
  | .ok (i, _) => some i
  | .error _ => none

end Sys2Proof
end

