-- ==== Sys2Proof/Machine/State.lean ====
section
/-! DEFINITION. The state of the machine: the engine's registers, buffers and hidden registers (rules R20
to R48), the host agent and whose turn it is (rule R15), the reasons a step stops, and reset. -/

namespace Sys2Proof.Machine

/-- The hidden scratch registers of rule R44, all zeroed before BUSY falls (rule R45).  The spec leaves the
size of KS1 and KS2 open: 15 round keys of 128 bits, the most AES-256 needs (DESIGN CHOICE, safe: log
entry 4); I has the 8 bits the spec asks for at least. -/
structure Scratch where
  /-- `hid.T`, the current tweak. -/
  T   : Block
  /-- `hid.CC` and `hid.PP`, the ciphertext-stealing intermediates. -/
  CC  : Block
  PP  : Block
  /-- `hid.BLK`, the block in flight through the AES wrapper. -/
  BLK : Block
  /-- `hid.KS1` and `hid.KS2`, the key-schedule state of KEY1 and KEY2. -/
  KS1 : BitVec 1920
  KS2 : BitVec 1920
  /-- `hid.I`, the index of the block in flight. -/
  I   : BitVec 8
  deriving DecidableEq, Repr

/-- The bytes of DIN and DOUT written since reset, by window offset, offsets strictly rising.  A byte that
is not listed has not been written since reset (DESIGN CHOICE, safe: log entry 2). -/
abbrev Memory := List Host.Cell

/-- The whole machine.  `turns`, `program`, `lastRead` and `rdMismatch` are the host agent and the
schedule (rules R15, R90; log entries 5, 6); `resets` and `busyDoutReads` are the model's own counters,
which pick the free values of rules R48 and R224 (log entries 2, 3); `duMax` is the parameter `P_DU_MAX`
the engine was built with (rule R7, log entry 10); everything else is the engine. -/
structure State where
  /-- STATUS.BUSY (rule R24), which is also the sequencer phase: 1 is RUNNING (rule R42). -/
  busy    : Bool
  /-- STATUS.DONE (rule R25). -/
  done    : Bool
  /-- STATUS.CMD_LOST (rule R26). -/
  cmdLost : Bool
  /-- STATUS.WR_IGN (rule R27). -/
  wrIgn   : Bool
  /-- STATUS.ERR (rule R28). -/
  err     : BitVec 4
  /-- CFG.K1LEN, CFG.K2LEN, CFG.IE (rule R31). -/
  k1len   : BitVec 2
  k2len   : BitVec 2
  ie      : Bool
  /-- LEN (rule R33). -/
  len     : Word
  /-- KEY1_0 to KEY1_7 and KEY2_0 to KEY2_7 (rules R34, R35). -/
  key1    : Vector Word 8
  key2    : Vector Word 8
  /-- TWEAK_0 to TWEAK_3 (rule R37). -/
  tweak   : Vector Word 4
  /-- DIN and DOUT (rules R39, R40). -/
  mem     : Memory
  /-- `hid.CMD` (rules R30, R44). -/
  hidCmd  : Word
  /-- The other hidden registers (rule R44). -/
  scratch : Scratch
  /-- The host's remaining program (rule R90). -/
  program : HostProgram
  /-- The word the host's last read returned. -/
  lastRead : Word
  /-- A host read returned another value than its `== VAL` states (rule R90). -/
  rdMismatch : Bool
  /-- Who takes the coming steps; once used up, the engine while RUNNING and else the host. -/
  turns   : List Turn
  /-- How many resets there have been since the first (rule R48: a draw taken once at reset). -/
  resets  : Nat
  /-- How many DOUT reads have been answered while BUSY = 1 (rule R224). -/
  busyDoutReads : Nat
  /-- `P_DU_MAX` (rules R7, R38): an argument of the machine, which no step changes. -/
  duMax   : Config.DuMax
  deriving DecidableEq, Repr

/-- Why a host access or a step stops. -/
inductive Fault where
  /-- The bus error response of rule R62: an access that is not a 4-byte access at a multiple of 4.  Raised
  by the host's access; nothing changed.  Safe: the spec says that a model faults the host program. -/
  | busError (off : Nat)
  deriving DecidableEq, Repr

/-- What the model gives no meaning to. -/
inductive Refusal where
  /-- An instruction that has no meaning in the model, by mnemonic.  Raised by no arm of `exec`.  Safe. -/
  | notModelled (mnemonic : String)
  /-- A host access outside the register window, whose decoding is the platform's and not the engine's (rule
  R61, U19).  Raised by the host's access.  Safe: nothing is claimed of the platform. -/
  | outsideWindow (off : Nat)
  deriving DecidableEq, Repr

/-- Every hidden scratch register at zero (rules R45, R48). -/
def Scratch.zero : Scratch := ⟨0, 0, 0, 0, 0, 0, 0⟩

/-- The machine right after reset (rule R48).  No byte of DIN or DOUT is written.  The fields that are the
model's own start empty: no program, no scheduled turn, last read 0, both counters 0 (DESIGN CHOICE: log
entries 2, 3, 5 and 6).  `P_DU_MAX` has its default. -/
def State.reset : State where
  busy := false
  done := false
  cmdLost := false
  wrIgn := false
  err := 0
  k1len := 0
  k2len := 0
  ie := false
  len := 0
  key1 := Vector.replicate 8 0
  key2 := Vector.replicate 8 0
  tweak := Vector.replicate 4 0
  mem := []
  hidCmd := 0
  scratch := Scratch.zero
  program := .done
  lastRead := 0
  rdMismatch := false
  turns := []
  resets := 0
  busyDoutReads := 0
  duMax := Config.P_DU_MAX

end Sys2Proof.Machine
end

