-- ==== Sys2Proof/Machine/Flags.lean ====
section
/-! DEFINITION. The status flags, the error codes and the interrupt line: the STATUS and CFG words as the
host reads them, and what sets and clears each flag (rules R23 to R31, R180, R190). -/

namespace Sys2Proof.Machine

/-- The error codes an operation completes with (rule R180). -/
inductive ErrCode where
  | ok
  | invalidParam
  | unsupportedDuSize
  | primFail
  | illegalCmd
  deriving DecidableEq, Repr

/-- The value of STATUS.ERR for each code (rule R180). -/
def ErrCode.code : ErrCode → BitVec 4
  | .ok => 0x0#4
  | .invalidParam => 0x1#4
  | .unsupportedDuSize => 0x2#4
  | .primFail => 0x3#4
  | .illegalCmd => 0x4#4

/-- The sequencer phase (rule R42). -/
inductive Phase where
  | idle
  | running
  deriving DecidableEq, Repr

/-- IDLE is BUSY = 0 and RUNNING is BUSY = 1 (rule R42). -/
def State.phase (s : State) : Phase := if s.busy then .running else .idle

/-- STATUS as a word, from bit 31 down: reserved, ERR, WR_IGN, CMD_LOST, DONE, BUSY (rule R23). -/
def statusWord (s : State) : Word :=
  0#24 ++ s.err ++ BitVec.ofBool s.wrIgn ++ BitVec.ofBool s.cmdLost ++ BitVec.ofBool s.done ++ BitVec.ofBool s.busy

/-- CFG as a word, from bit 31 down: reserved, IE, reserved, K2LEN, K1LEN (rule R31). -/
def cfgWord (s : State) : Word := 0#23 ++ BitVec.ofBool s.ie ++ 0#4 ++ s.k2len ++ s.k1len

/-- The interrupt output: `irq = STATUS.DONE and CFG.IE` at every instant (rule R190). -/
def State.irq (s : State) : Bool := s.done && s.ie

/-- The latency of the operation in progress, in cycles (rule R226).  No rule of the model uses it. -/
def State.latency (s : State) : Nat := Config.P_LAT s.hidCmd s.len s.k1len s.k2len

/-- A CMD write arrived while BUSY (rule R26). -/
def setCmdLost (s : State) : State := { s with cmdLost := true }

/-- A write to an input register was ignored because BUSY (rule R27). -/
def setWrIgn (s : State) : State := { s with wrIgn := true }

/-- A STATUS write: bits 1, 2 and 3 clear DONE, CMD_LOST and WR_IGN where they are 1; every other bit is
ignored (rule R29).  It is the host's acknowledgement, this engine's counterpart of the return from an
exception (rule R193). -/
def writeStatus (v : Word) (s : State) : State :=
  { s with
    done := s.done && !v.getLsbD 1
    cmdLost := s.cmdLost && !v.getLsbD 2
    wrIgn := s.wrIgn && !v.getLsbD 3 }

/-- What a CFG write stores (rule R31). -/
def writeCfg (v : Word) (s : State) : State :=
  { s with k1len := v.extractLsb' 0 2, k2len := v.extractLsb' 2 2, ie := v.getLsbD 8 }

end Sys2Proof.Machine
end

