-- ==== Sys2Proof/Machine/Memory.lean ====
section
/-! DEFINITION. The byte memory of DIN and DOUT: its canonical form, reading and writing (rules R39, R40,
R48, R76). -/

namespace Sys2Proof.Machine

/-- Window offset of DIN[0] (rule R21). -/
def DIN : Nat := 0x1000

/-- Window offset of DOUT[0] (rule R21). -/
def DOUT : Nat := 0x2000

/-- The bytes in each of the two buffers (rules R39, R40). -/
def bufferSize : Nat := 4096

/-- The canonical form: offsets strictly rising, each in DIN or DOUT.  An unlisted offset holds no written
value at all, so no entry can equal what an unlisted one holds. -/
def Memory.wf (m : Memory) : Bool :=
  decide (m.Pairwise (fun c d => c.1 < d.1)) && m.all (fun c => decide (DIN ≤ c.1) && decide (c.1 < DOUT + bufferSize))

/-- The byte written at an offset since reset, if any. -/
def Memory.written : Memory → Nat → Option Byte
  | [], _ => none
  | c :: m, a => if c.1 = a then some c.2 else Memory.written m a

/-- Consecutive entries from an offset on. -/
def Memory.cells : Nat → List Byte → Memory
  | _, [] => []
  | off, b :: bs => (off, b) :: Memory.cells (off + 1) bs

/-- Write a byte string at an offset, one entry per byte, the rest as before. -/
def Memory.writeBytes (m : Memory) (off : Nat) (bs : List Byte) : Memory :=
  m.filter (fun c => decide (c.1 < off)) ++ Memory.cells off bs
    ++ m.filter (fun c => decide (off + bs.length ≤ c.1))

/-- One byte of DIN or DOUT by window offset: what was last written there, or the byte the reset drew (rules
R48, R76; U1). -/
def readByte (s : State) (a : Nat) : Byte := (s.mem.written a).getD (Config.bufferDraw s.resets a)

/-- `n` consecutive bytes from a window offset on. -/
def readBytes (s : State) : Nat → Nat → List Byte
  | _, 0 => []
  | a, n + 1 => readByte s a :: readBytes s (a + 1) n

end Sys2Proof.Machine
end

