-- ==== Sys2Proof/Machine/Operands.lean ====
section
/-! DEFINITION. Where a command reads its operands: the key files with their length codes, the TWEAK
register and the input buffer (rules R32 to R39, R83). -/

namespace Sys2Proof.Machine

/-- `klen(c)`, the key length in bytes of a length code; code 3 has none (rule R32). -/
def klen (code : BitVec 2) : Option Nat :=
  if code = 0#2 then some 16 else if code = 1#2 then some 24 else if code = 2#2 then some 32 else none

/-- The key a command uses: the first 16 bytes of the key file for length code 0 and all 32 bytes for code
2 (rules R36, R67).  No command comes here with another code: AESW fails on code 1 (rule R121) and
every command rejects code 3 before; what this gives for them is used by nothing (DESIGN CHOICE, safe: log
entry 13). -/
def aesKey (raw : Vector Word 8) (code : BitVec 2) : AesKey :=
  if code = 0#2 then .aes128 (BitVec.ofNat 128 (leNat ((registerBytes raw).take 16)))
  else .aes256 (BitVec.ofNat 256 (leNat ((registerBytes raw).take 32)))

/-- KEYSEL: the key file and its length code, KEY1 for 0 and KEY2 for 1 (rules R81, R124). -/
def selectedKey (keySel : Bool) (s : State) : Vector Word 8 × BitVec 2 :=
  if keySel then (s.key2, s.k2len) else (s.key1, s.k1len)

/-- The 16-byte value in TWEAK (rule R37). -/
def tweakBlock (s : State) : Block := blockOfBytes (registerBytes s.tweak)

/-- `DIN[0..n)` (rule R39). -/
def dinBytes (s : State) (n : Nat) : List Byte := readBytes s DIN n

/-- `DIN[0..16)`, the block the AES commands read (rule R124). -/
def dinBlock (s : State) : Block := blockOfBytes (dinBytes s 16)

/-- `DOUT[0..n)` (rule R40). -/
def doutBytes (s : State) (n : Nat) : List Byte := readBytes s DOUT n

end Sys2Proof.Machine
end

