-- ==== Sys2Proof/Machine/Ops.lean ====
section
/-! DEFINITION. The shared operations: completing an operation (rule R183), this engine's one form of
exception, with the host's acknowledgement beside it in Flags.lean; accepting a command (rule R30);
host reads and writes of every window offset (rules R21 to R41, R60 to R78, R222 to R225); reset. -/

namespace Sys2Proof.Machine

/-- `finish_common(code)`: zeroize the scratch, write ERR, clear BUSY, set DONE (rules R45, R183).  The
engine's exceptions are these codes: completing with one is taking it. -/
def finishCommon (e : ErrCode) (s : State) : State :=
  { s with scratch := Scratch.zero, err := e.code, busy := false, done := true }

/-- `finish(code)` for a code other than OK: DOUT is untouched (rules R183, R184). -/
def finishErr (e : ErrCode) (s : State) : State := finishCommon e s

/-- `finish(OK, S, off)`: `DOUT[off..off+len(S)) <- S`, then complete (rules R12, R183). -/
def finishOk (S : List Byte) (off : Nat) (s : State) : State :=
  finishCommon .ok { s with mem := s.mem.writeBytes (DOUT + off) S }

/-- What the engine holds in its hidden scratch while an operation runs (rules R44, R157); `finishCommon`
zeroes it before BUSY falls (DESIGN CHOICE, safe: log entry 12). -/
def loadScratch (c : Scratch) (s : State) : State := { s with scratch := c }

/-- Acceptance of a command: any 32-bit word, not decoded (rule R30). -/
def acceptCommand (v : Word) (s : State) : State := { s with hidCmd := v, done := false, busy := true }

/-- A CMD write: dropped with CMD_LOST while BUSY = 1, else accepted (rules R30, R187, R223). -/
def writeCmd (v : Word) (s : State) : State := if s.busy then setCmdLost s else acceptCommand v s

/-- A write to an input register or to DIN: ignored with WR_IGN while BUSY = 1 (rules R188, R222). -/
def writeInput (store : State → State) (s : State) : State := if s.busy then setWrIgn s else store s

/-- What a window offset names (rule R21). -/
inductive BusReg where
  | id
  | status
  | cmd
  | cfg
  | len
  | dumax
  | key1 (j : Fin 8)
  | key2 (j : Fin 8)
  | tweak (j : Fin 4)
  | din
  | dout
  | reserved
  deriving DecidableEq, Repr

/-- The registers with an offset of their own, offsets 0x0000 to 0x003F (rule R21). -/
def controlReg : Nat → BusReg
  | 0x0000 => .id
  | 0x0004 => .status
  | 0x0008 => .cmd
  | 0x000C => .cfg
  | 0x0010 => .len
  | 0x0014 => .dumax
  | _ => .reserved

/-- The registers of the window's first page: the control registers and the three register files (rule
R21). -/
def fileReg (off : Nat) : BusReg :=
  if off < 0x0040 then controlReg off
  else if off < 0x0060 then .key1 (Fin.ofNat 8 ((off - 0x0040) / 4))
  else if off < 0x0080 then .key2 (Fin.ofNat 8 ((off - 0x0060) / 4))
  else if off < 0x0090 then .tweak (Fin.ofNat 4 ((off - 0x0080) / 4))
  else .reserved

/-- The register map (rule R21), page by page; every offset not named there is reserved (rule R41). -/
def busReg (off : Nat) : BusReg :=
  match off / 0x1000 with
  | 0 => fileReg off
  | 1 => .din
  | 2 => .dout
  | _ => .reserved

/-- The value of a host read (rules R21 to R41, R224, R225).  A DOUT read while BUSY = 1 is a free value. -/
def busReadValue (off : Nat) (s : State) : Word :=
  match busReg off with
  | .id => Config.P_ID
  | .status => statusWord s
  | .cmd => 0#32
  | .cfg => cfgWord s
  | .len => s.len
  | .dumax => BitVec.ofNat 32 s.duMax
  | .key1 _ => 0#32
  | .key2 _ => 0#32
  | .tweak j => s.tweak[j]
  | .din => wordOfBytes (readBytes s off 4)
  | .dout => if s.busy then Config.busyDoutDraw s.busyDoutReads else wordOfBytes (readBytes s off 4)
  | .reserved => 0#32

/-- After a host read: the host holds the word; the engine is as before (rule R69).  A DOUT read while BUSY
= 1 has used up one free value (rule R224: drawn independently for each read). -/
def busRead (off : Nat) (s : State) : State :=
  let v := busReadValue off s
  match busReg off with
  | .dout => { s with lastRead := v, busyDoutReads := if s.busy then s.busyDoutReads + 1 else s.busyDoutReads }
  | _ => { s with lastRead := v }

/-- A host write (rules R21 to R41, R70).  Writes to read-only registers, DOUT and reserved offsets are
ignored and set no flag (rules R27, R40, R41). -/
def busWrite (off : Nat) (v : Word) (s : State) : State :=
  match busReg off with
  | .id => s
  | .status => writeStatus v s
  | .cmd => writeCmd v s
  | .cfg => writeInput (writeCfg v) s
  | .len => writeInput (fun s => { s with len := v }) s
  | .dumax => s
  | .key1 j => writeInput (fun s => { s with key1 := s.key1.set j v }) s
  | .key2 j => writeInput (fun s => { s with key2 := s.key2.set j v }) s
  | .tweak j => writeInput (fun s => { s with tweak := s.tweak.set j v }) s
  | .din => writeInput (fun s => { s with mem := s.mem.writeBytes off (wordBytes v) }) s
  | .dout => s
  | .reserved => s

/-- One host access (rules R61, R62, R68): outside the window it is not the engine's; one that is not a
4-byte access at a multiple of 4 gets the bus error; every other takes effect whole (DEDUCED, safe: log
entry 8). -/
def hostAccess (a : Access) (s : State) : Host.Outcome State Fault Refusal :=
  if Config.P_WINDOW ≤ a.off then .refused (.outsideWindow a.off)
  else if a.width ≠ 4 ∨ a.off % 4 ≠ 0 then .fault (.busError a.off)
  else
    match a.write with
    | some v => .next (busWrite a.off v s)
    | none => .next (busRead a.off s)

/-- The window offset of a bus address, when the address lies in the window (rules R61, R79). -/
def windowOffset (addr : Nat) : Option Nat :=
  if Config.P_BASE ≤ addr ∧ addr < Config.P_BASE + Config.P_WINDOW then some (addr - Config.P_BASE) else none

/-- The reset input: every piece of the engine takes its reset value, an operation in progress is abandoned,
and DIN and DOUT are drawn afresh (rules R210, R211; U3).  The host keeps its program and the engine its
parameter (DEDUCED, safe: log entry 9). -/
def resetInput (s : State) : State :=
  { State.reset with
    program := s.program
    lastRead := s.lastRead
    rdMismatch := s.rdMismatch
    turns := s.turns
    resets := s.resets + 1
    busyDoutReads := s.busyDoutReads
    duMax := s.duMax }

end Sys2Proof.Machine
end

