-- ==== Sys2Proof/Machine/HostAgent.lean ====
section
/-! DEFINITION. The host agent: its turn, the assembler syntax and the host program notation (rules R15,
R88 to R92). -/

namespace Sys2Proof.Machine

/-- Change the next state of an outcome; a fault or a refusal stays. -/
def mapNext (f : State → State) : Host.Outcome State Fault Refusal → Host.Outcome State Fault Refusal
  | .next s => .next (f s)
  | .fault r => .fault r
  | .refused r => .refused r

/-- The word a host write stores (rules R90, R91). -/
def hostValue (s : State) : HostValue → Word
  | .imm v => v
  | .lastRead => s.lastRead

/-- Record whether a read gave the value that its `== VAL` states (rule R90); the host goes on either way
(DESIGN CHOICE, safe: log entry 15). -/
def noteExpected : Option Word → State → State
  | none, s => s
  | some v, s => { s with rdMismatch := s.rdMismatch || s.lastRead != v }

/-- A poll goes on to the rest of the program once `(v & MASK) = VAL`, and else reads again (rule R90). -/
def pollNext (mask val : Word) (rest : HostProgram) (s : State) : State :=
  if s.lastRead &&& mask = val then { s with program := rest } else s

/-- The host's turn: it performs its next statement, at most one bus access (rules R11, R15, R71, R90).  A
`repeat` unfolds without an access; a host without statements does nothing (DESIGN CHOICE, safe: log
entry 6). -/
def hostTurn (s : State) : Host.Outcome State Fault Refusal :=
  match s.program with
  | .done => .next s
  | .wr off v rest => hostAccess ⟨off, 4, some (hostValue s v)⟩ { s with program := rest }
  | .rd off e rest => mapNext (noteExpected e) (hostAccess ⟨off, 4, none⟩ { s with program := rest })
  | .poll off mask val rest => mapNext (pollNext mask val rest) (hostAccess ⟨off, 4, none⟩ s)
  | .rep 0 _ rest => .next { s with program := rest }
  | .rep (n + 1) body rest => .next { s with program := body.append (.rep n body rest) }
  | .bus a rest => hostAccess a { s with program := rest }

/-- The window offsets that register names stand for in host programs (rule R89). -/
def ID : Nat := 0x0000
def STATUS : Nat := 0x0004
def CMD : Nat := 0x0008
def CFG : Nat := 0x000C
def LEN : Nat := 0x0010
def DUMAX : Nat := 0x0014
def KEY1 : Nat := 0x0040
def KEY2 : Nat := 0x0060
def TWEAK : Nat := 0x0080

/-- A command as the assembler writes it: a mnemonic, or `.cmd <value>` for any word (rule R88). -/
inductive Command where
  | mnemonic (i : Instr)
  | cmd (v : Word)
  deriving DecidableEq, Repr

/-- The word a command assembles to (rule R88). -/
def commandWord : Command → Word
  | .mnemonic i => encode i
  | .cmd v => v

/-- The mnemonic of each command (rule R88). -/
def mnemonic : Instr → String
  | .xtsEnc => "XTS.ENC"
  | .xtsDec => "XTS.DEC"
  | .aesEncK1 => "AES.ENC k1"
  | .aesEncK2 => "AES.ENC k2"
  | .aesDecK1 => "AES.DEC k1"
  | .aesDecK2 => "AES.DEC k2"
  | .gfMulx => "GF.MULX"

/-- `w_j(HEX)`: the little-endian words of a byte string, missing bytes of a short last word being 0 (rule
R91). -/
def wordsOfBytes : List Byte → List Word
  | [] => []
  | b0 :: b1 :: b2 :: b3 :: rest => wordOfBytes [b0, b1, b2, b3] :: wordsOfBytes rest
  | short => [wordOfBytes short]

/-- `wr` of consecutive words from an offset on. -/
def writeWords : Nat → List Word → HostProgram
  | _, [] => .done
  | off, w :: ws => .wr off (.imm w) (writeWords (off + 4) ws)

/-- The pseudo-instructions, each by its expansion (rules R91, R92). -/
def pseudoCfg (a b e : Word) : HostProgram := .wr CFG (.imm (a ||| (b <<< 2) ||| (e <<< 8))) .done
def pseudoLen (n : Word) : HostProgram := .wr LEN (.imm n) .done
def pseudoLdKey1 (hex : List Byte) : HostProgram := writeWords KEY1 (wordsOfBytes hex)
def pseudoLdKey2 (hex : List Byte) : HostProgram := writeWords KEY2 (wordsOfBytes hex)
def pseudoLdTweak (hex : List Byte) : HostProgram := writeWords TWEAK (wordsOfBytes hex)
def pseudoLdDin (hex : List Byte) : HostProgram := writeWords DIN (wordsOfBytes hex)
def pseudoRun (c : Command) : HostProgram := .wr CMD (.imm (commandWord c)) (.poll STATUS 0x1#32 0x0#32 .done)
def pseudoAck : HostProgram := .wr STATUS (.imm 0x0000000E#32) .done

/-- `copy SRC, DST, N`: read a word and write the value read, `N` times (rule R91). -/
def pseudoCopy : Nat → Nat → Nat → HostProgram
  | _, _, 0 => .done
  | src, dst, n + 1 => .rd src none (.wr dst .lastRead (pseudoCopy (src + 4) (dst + 4) n))

end Sys2Proof.Machine
end

