-- ==== Sys2Proof/Machine/Aes.lean ====
section
/-! DEFINITION. The AES block functions of FIPS-197, the primitive of this hardware by decision D25
(rules R3, R120).  PRESUMED, unsafe (log entry 1): the spec treats the internal rounds and the key
schedule as opaque (rule R6 (c)) and fixes only the interface and the laws of rule R120; the rounds
below come from outside it.  Nothing else of the model looks inside them. -/

namespace Sys2Proof.Machine

/-- A column of the AES state, or a word of the key schedule: four bytes, row 0 first. -/
structure AesColumn where
  r0 : Byte
  r1 : Byte
  r2 : Byte
  r3 : Byte
  deriving DecidableEq, Repr

/-- The AES state: four columns; input byte `k` is row `k mod 4` of column `k div 4`. -/
structure AesState where
  c0 : AesColumn
  c1 : AesColumn
  c2 : AesColumn
  c3 : AesColumn
  deriving DecidableEq, Repr

/-- Four bytes as a 32-bit group, row 0 in the low byte. -/
def AesColumn.toBits (c : AesColumn) : BitVec 32 := c.r3 ++ c.r2 ++ c.r1 ++ c.r0

/-- The column at bits `32j+31 : 32j` of a little-endian byte string. -/
def AesColumn.ofBits {w : Nat} (v : BitVec w) (j : Nat) : AesColumn :=
  ⟨v.extractLsb' (32 * j) 8, v.extractLsb' (32 * j + 8) 8, v.extractLsb' (32 * j + 16) 8,
    v.extractLsb' (32 * j + 24) 8⟩

/-- The state a block fills (rule R67: byte `k` at index `k`). -/
def AesState.ofBlock (b : Block) : AesState :=
  ⟨AesColumn.ofBits b 0, AesColumn.ofBits b 1, AesColumn.ofBits b 2, AesColumn.ofBits b 3⟩

/-- The block a state holds (rule R67). -/
def AesState.toBlock (s : AesState) : Block :=
  s.c3.toBits ++ s.c2.toBits ++ s.c1.toBits ++ s.c0.toBits

/-- Rows of 16 entries, entry 0 in the most significant byte. -/
def tableByte (rows : List Nat) (x : Byte) : Byte :=
  BitVec.ofNat 8 ((rows.getD (x.toNat / 16) 0) >>> (8 * (15 - x.toNat % 16)))

/-- The substitution table SBOX. -/
def sboxRows : List Nat :=
  [ 0x637c777bf26b6fc53001672bfed7ab76, 0xca82c97dfa5947f0add4a2af9ca472c0,
    0xb7fd9326363ff7cc34a5e5f171d83115, 0x04c723c31896059a071280e2eb27b275,
    0x09832c1a1b6e5aa0523bd6b329e32f84, 0x53d100ed20fcb15b6acbbe394a4c58cf,
    0xd0efaafb434d338545f9027f503c9fa8, 0x51a3408f929d38f5bcb6da2110fff3d2,
    0xcd0c13ec5f974417c4a77e3d645d1973, 0x60814fdc222a908846eeb814de5e0bdb,
    0xe0323a0a4906245cc2d3ac629195e479, 0xe7c8376d8dd54ea96c56f4ea657aae08,
    0xba78252e1ca6b4c6e8dd741f4bbd8b8a, 0x703eb5664803f60e613557b986c11d9e,
    0xe1f8981169d98e949b1e87e9ce5528df, 0x8ca1890dbfe6426841992d0fb054bb16 ]

/-- The inverse substitution table INVSBOX. -/
def invSboxRows : List Nat :=
  [ 0x52096ad53036a538bf40a39e81f3d7fb, 0x7ce339829b2fff87348e4344c4dee9cb,
    0x547b9432a6c2233dee4c950b42fac34e, 0x082ea16628d924b2765ba2496d8bd125,
    0x72f8f66486689816d4a45ccc5d65b692, 0x6c704850fdedb9da5e154657a78d9d84,
    0x90d8ab008cbcd30af7e45805b8b34506, 0xd02c1e8fca3f0f02c1afbd0301138a6b,
    0x3a9111414f67dcea97f2cfcef0b4e673, 0x96ac7422e7ad3585e2f937e81c75df6e,
    0x47f11a711d29c5896fb7620eaa18be1b, 0xfc563e4bc6d279209adbc0fe78cd5af4,
    0x1fdda8338807c731b11210592780ec5f, 0x60517fa919b54a0d2de57a9f93c99cef,
    0xa0e03b4dae2af5b0c8ebbb3c83539961, 0x172b047eba77d626e169146355210c7d ]

/-- SBOX of one byte. -/
def sbox (x : Byte) : Byte := tableByte sboxRows x

/-- INVSBOX of one byte. -/
def invSbox (x : Byte) : Byte := tableByte invSboxRows x

/-- A byte function on each byte of a column. -/
def AesColumn.map (f : Byte → Byte) (c : AesColumn) : AesColumn := ⟨f c.r0, f c.r1, f c.r2, f c.r3⟩

/-- Bytewise exclusive OR of two columns. -/
def AesColumn.xor (a b : AesColumn) : AesColumn :=
  ⟨a.r0 ^^^ b.r0, a.r1 ^^^ b.r1, a.r2 ^^^ b.r2, a.r3 ^^^ b.r3⟩

/-- A column function on each column of the state. -/
def AesState.map (f : AesColumn → AesColumn) (s : AesState) : AesState := ⟨f s.c0, f s.c1, f s.c2, f s.c3⟩

/-- ADDROUNDKEY. -/
def addRoundKey (k s : AesState) : AesState :=
  ⟨s.c0.xor k.c0, s.c1.xor k.c1, s.c2.xor k.c2, s.c3.xor k.c3⟩

/-- SUBBYTES. -/
def subBytes (s : AesState) : AesState := s.map (AesColumn.map sbox)

/-- INVSUBBYTES. -/
def invSubBytes (s : AesState) : AesState := s.map (AesColumn.map invSbox)

/-- SHIFTROWS: row `r` moves left by `r` columns. -/
def shiftRows (s : AesState) : AesState :=
  ⟨⟨s.c0.r0, s.c1.r1, s.c2.r2, s.c3.r3⟩, ⟨s.c1.r0, s.c2.r1, s.c3.r2, s.c0.r3⟩,
   ⟨s.c2.r0, s.c3.r1, s.c0.r2, s.c1.r3⟩, ⟨s.c3.r0, s.c0.r1, s.c1.r2, s.c2.r3⟩⟩

/-- INVSHIFTROWS: row `r` moves right by `r` columns. -/
def invShiftRows (s : AesState) : AesState :=
  ⟨⟨s.c0.r0, s.c3.r1, s.c2.r2, s.c1.r3⟩, ⟨s.c1.r0, s.c0.r1, s.c3.r2, s.c2.r3⟩,
   ⟨s.c2.r0, s.c1.r1, s.c0.r2, s.c3.r3⟩, ⟨s.c3.r0, s.c2.r1, s.c1.r2, s.c0.r3⟩⟩

/-- XTIMES: multiplication by x in GF(2^8) modulo x^8 + x^4 + x^3 + x + 1. -/
def xtime (a : Byte) : Byte := (a <<< 1) ^^^ (0x1b#8 * (a >>> 7))

/-- The multiples of a byte that MIXCOLUMNS and its inverse use. -/
def mul2 (a : Byte) : Byte := xtime a
def mul3 (a : Byte) : Byte := xtime a ^^^ a
def mul9 (a : Byte) : Byte := xtime (xtime (xtime a)) ^^^ a
def mul11 (a : Byte) : Byte := xtime (xtime (xtime a)) ^^^ xtime a ^^^ a
def mul13 (a : Byte) : Byte := xtime (xtime (xtime a)) ^^^ xtime (xtime a) ^^^ a
def mul14 (a : Byte) : Byte := xtime (xtime (xtime a)) ^^^ xtime (xtime a) ^^^ xtime a

/-- MIXCOLUMNS on one column. -/
def mixColumn (c : AesColumn) : AesColumn :=
  ⟨mul2 c.r0 ^^^ mul3 c.r1 ^^^ c.r2 ^^^ c.r3, c.r0 ^^^ mul2 c.r1 ^^^ mul3 c.r2 ^^^ c.r3,
   c.r0 ^^^ c.r1 ^^^ mul2 c.r2 ^^^ mul3 c.r3, mul3 c.r0 ^^^ c.r1 ^^^ c.r2 ^^^ mul2 c.r3⟩

/-- INVMIXCOLUMNS on one column. -/
def invMixColumn (c : AesColumn) : AesColumn :=
  ⟨mul14 c.r0 ^^^ mul11 c.r1 ^^^ mul13 c.r2 ^^^ mul9 c.r3, mul9 c.r0 ^^^ mul14 c.r1 ^^^ mul11 c.r2 ^^^ mul13 c.r3,
   mul13 c.r0 ^^^ mul9 c.r1 ^^^ mul14 c.r2 ^^^ mul11 c.r3, mul11 c.r0 ^^^ mul13 c.r1 ^^^ mul9 c.r2 ^^^ mul14 c.r3⟩

/-- ROTWORD. -/
def rotWord (c : AesColumn) : AesColumn := ⟨c.r1, c.r2, c.r3, c.r0⟩

/-- The first byte of the round constant Rcon[j], x^(j-1), for `j` from 1; no round uses `j = 0`. -/
def rcon : Nat → Byte
  | 0 => 0x00#8
  | j + 1 => if j = 0 then 0x01#8 else xtime (rcon j)

/-- The key schedule word after the words `ws` (newest first) of a key of `nk` words, `i` being its
index. -/
def nextKeyWord (nk i : Nat) (ws : List AesColumn) : AesColumn :=
  let last := ws.getD 0 ⟨0, 0, 0, 0⟩
  let temp :=
    if i % nk = 0 then ((rotWord last).map sbox).xor ⟨rcon (i / nk), 0, 0, 0⟩
    else if 6 < nk ∧ i % nk = 4 then last.map sbox
    else last
  (ws.getD (nk - 1) ⟨0, 0, 0, 0⟩).xor temp

/-- `count` more words of the key schedule, newest first, `i` being the index of the next one. -/
def expandKeyWords (nk : Nat) : Nat → Nat → List AesColumn → List AesColumn
  | 0, _, ws => ws
  | count + 1, i, ws => expandKeyWords nk count (i + 1) (nextKeyWord nk i ws :: ws)

/-- Key schedule words, oldest first, taken four at a time. -/
def groupRoundKeys : List AesColumn → List AesState
  | a :: b :: c :: d :: rest => ⟨a, b, c, d⟩ :: groupRoundKeys rest
  | _ => []

/-- KEYEXPANSION: 11 round keys of a 16-byte key, 15 of a 32-byte key. -/
def roundKeys : AesKey → List AesState
  | .aes128 k =>
    groupRoundKeys (expandKeyWords 4 40 4 ((List.range 4).map (AesColumn.ofBits k)).reverse).reverse
  | .aes256 k =>
    groupRoundKeys (expandKeyWords 8 52 8 ((List.range 8).map (AesColumn.ofBits k)).reverse).reverse

/-- The rounds of CIPHER after the first ADDROUNDKEY; the last round has no MIXCOLUMNS. -/
def cipherRounds : List AesState → AesState → AesState
  | [], s => s
  | [k], s => addRoundKey k (shiftRows (subBytes s))
  | k :: ks, s => cipherRounds ks (addRoundKey k ((shiftRows (subBytes s)).map mixColumn))

/-- CIPHER. -/
def cipher : List AesState → AesState → AesState
  | [], s => s
  | k :: ks, s => cipherRounds ks (addRoundKey k s)

/-- The rounds of INVCIPHER after the first ADDROUNDKEY, the round keys in the order it uses them. -/
def invCipherRounds : List AesState → AesState → AesState
  | [], s => s
  | [k], s => addRoundKey k (invSubBytes (invShiftRows s))
  | k :: ks, s => invCipherRounds ks ((addRoundKey k (invSubBytes (invShiftRows s))).map invMixColumn)

/-- INVCIPHER, the round keys in the order CIPHER uses them. -/
def invCipher (ks : List AesState) (s : AesState) : AesState :=
  match ks.reverse with
  | [] => s
  | k :: rest => invCipherRounds rest (addRoundKey k s)

/-- `AESEnc(K, B)` of FIPS-197. -/
def fipsEnc (K : AesKey) (B : Block) : Block := (cipher (roundKeys K) (AesState.ofBlock B)).toBlock

/-- `AESDec(K, B)` of FIPS-197. -/
def fipsDec (K : AesKey) (B : Block) : Block := (invCipher (roundKeys K) (AesState.ofBlock B)).toBlock

/-- The AES of FIPS-197 with 128-bit and 256-bit keys (rule R120, decision D25). -/
def fips197 : BlockCipher := ⟨fipsEnc, fipsDec⟩

end Sys2Proof.Machine
end

