-- ==== Sys2Proof/Machine/Aesw.lean ====
section
/-! DEFINITION. The AES block cipher wrapper and its four commands (rules R120 to R127). -/

namespace Sys2Proof.Machine

/-- The primitive in this hardware (rule R120, decision D25): replaceable without changing any other rule
(rule R128), so every definition below takes the primitive as an argument. -/
def aesPrimitive : BlockCipher := fips197

/-- The direction of an AES call (rules R121, R122). -/
inductive AesDir where
  | enc
  | dec
  deriving DecidableEq, Repr

/-- The block function of a direction (rule R121). -/
def blockFunction (p : BlockCipher) : AesDir → AesKey → Block → Block
  | .enc => p.enc
  | .dec => p.dec

/-- `AESW(dir, Kraw, code, B)`: no key schedule for code 1, which is PRIM_FAIL, here `none` (rules R121,
R123).  The failure depends on the length code alone (rule R126). -/
def aesw (p : BlockCipher) (dir : AesDir) (raw : Vector Word 8) (code : BitVec 2) (B : Block) : Option Block :=
  if code = 1#2 then none else some (blockFunction p dir (aesKey raw code) B)

/-- The key-schedule state the wrapper keeps while it works: the round keys, one after another (rule R44;
its form is not observable, rule R127). -/
def keySchedule (K : AesKey) : BitVec 1920 :=
  BitVec.ofNat 1920 (leNat ((roundKeys K).flatMap (fun k => blockBytes k.toBlock)))

/-- The scratch an AES command leaves to be zeroed: the block in flight and the selected key's schedule. -/
def aesScratch (keySel : Bool) (K : AesKey) (B : Block) : Scratch :=
  if keySel then { Scratch.zero with BLK := B, KS2 := keySchedule K }
  else { Scratch.zero with BLK := B, KS1 := keySchedule K }

/-- AES.ENC and AES.DEC (rules R124, R125): code 3 of the selected key is INVALID_PARAM, code 1 is PRIM_FAIL,
and else `DOUT[0..16) <- AESW(dir, ..., DIN[0..16))`.  The other key's code is not checked. -/
def aesCommand (p : BlockCipher) (dir : AesDir) (keySel : Bool) (s : State) : State :=
  let (raw, code) := selectedKey keySel s
  if code = 3#2 then finishErr .invalidParam s
  else
    match aesw p dir raw code (dinBlock s) with
    | none => finishErr .primFail s
    | some r => finishOk (blockBytes r) 0 (loadScratch (aesScratch keySel (aesKey raw code) r) s)

/-- AES.ENC k1 (rule R124). -/
def execAesEncK1 (s : State) : Host.Outcome State Fault Refusal := .next (aesCommand aesPrimitive .enc false s)

/-- AES.ENC k2 (rule R124). -/
def execAesEncK2 (s : State) : Host.Outcome State Fault Refusal := .next (aesCommand aesPrimitive .enc true s)

/-- AES.DEC k1 (rule R125). -/
def execAesDecK1 (s : State) : Host.Outcome State Fault Refusal := .next (aesCommand aesPrimitive .dec false s)

/-- AES.DEC k2 (rule R125). -/
def execAesDecK2 (s : State) : Host.Outcome State Fault Refusal := .next (aesCommand aesPrimitive .dec true s)

end Sys2Proof.Machine
end

