-- ==== Sys2Proof/Machine/Gf.lean ====
section
/-! DEFINITION. The GF(2^128) tweak multiplier (rules R100 to R106). -/

namespace Sys2Proof.Machine

/-- `mulx(T) = ((v << 1) mod 2^128) xor (0x87 · v[127])` with `v = le(T)` (rule R100).  The reduction is a
product with the carry bit, not a branch (rule R103). -/
def mulx (T : Block) : Block := (T <<< 1) ^^^ (0x87#128 * (T >>> 127))

/-- One byte after another of the byte-by-byte multiplication: each byte is shifted left by one and takes
in the top bit of the byte before it (rule R101). -/
def shiftLeftBytes : Byte → List Byte → List Byte
  | _, [] => []
  | prev, b :: bs => ((b <<< 1) ||| (prev >>> 7)) :: shiftLeftBytes b bs

/-- The same multiplication byte by byte (rule R101): `carry` is the top bit of the last byte, and byte 0
takes `0x87 & (0x00 - carry) & 0xFF`, a mask. -/
def mulxBytes (T : List Byte) : List Byte :=
  let carry := (T.getLastD 0#8) >>> 7
  match shiftLeftBytes 0#8 T with
  | [] => []
  | b :: bs => (b ^^^ (0x87#8 &&& (0x00#8 - carry))) :: bs

/-- `mulx^j(T)` (rule R106). -/
def mulxPow : Nat → Block → Block
  | 0, T => T
  | j + 1, T => mulx (mulxPow j T)

/-- The inverse of `mulx` (rule R105 (c)): when bit 0 of byte 0 is 1, XOR 0x87 into byte 0 first and set
the top bit after the right shift. -/
def mulxInv (T : Block) : Block :=
  if T.getLsbD 0 then ((T ^^^ 0x87#128) >>> 1) ||| (1#128 <<< 127) else T >>> 1

end Sys2Proof.Machine
end

