-- ==== Sys2Proof/Machine/Gfm.lean ====
section
/-! DEFINITION. The command of the tweak multiplier: GF.MULX (rule R104). -/

namespace Sys2Proof.Machine

/-- GF.MULX: `DOUT[0..16) <- mulx(TWEAK)`; it has no error (rule R104). -/
def execGfMulx (s : State) : Host.Outcome State Fault Refusal :=
  .next (finishOk (blockBytes (mulx (tweakBlock s))) 0 s)

end Sys2Proof.Machine
end

