-- ==== Sys2Proof/Machine/Xts.lean ====
section
/-! DEFINITION. The XTS sector engine: validation, tweaks, masking, the four data paths and the two
commands (rules R140 to R159).  The ciphertext-stealing text follows `90_conflicts.md` C1 to C3. -/

namespace Sys2Proof.Machine

/-- `xts_check()` in its order (rules R140, R182); `duMax` is `P_DU_MAX`. -/
def xtsCheck (duMax : Nat) (c1 c2 : BitVec 2) (n : Word) : ErrCode :=
  if ¬(c1 = 0#2 ∨ c1 = 2#2) ∨ ¬(c2 = 0#2 ∨ c2 = 2#2) then .invalidParam
  else if c1 ≠ c2 then .invalidParam
  else if n.toNat = 0 then .invalidParam
  else if n.toNat < 16 then .unsupportedDuSize
  else if duMax < n.toNat then .invalidParam
  else .ok

/-- `XE(B, T) = AESEnc(KEY1, B ⊕ T) ⊕ T` (rule R144). -/
def XE (p : BlockCipher) (K1 : AesKey) (B T : Block) : Block := p.enc K1 (B ^^^ T) ^^^ T

/-- `XD(B, T) = AESDec(KEY1, B ⊕ T) ⊕ T` (rule R145). -/
def XD (p : BlockCipher) (K1 : AesKey) (B T : Block) : Block := p.dec K1 (B ^^^ T) ^^^ T

/-- `X_i = X[16i..16i+16)` (rule R143). -/
def blockAt (X : List Byte) (i : Nat) : Block := blockOfBytes (sliceBytes X (16 * i) (16 * i + 16))

/-- The two variants of a data unit (rule R153): an exact multiple of the block size, or with a trailing
partial block of `rem` bytes. -/
inductive Partition where
  | whole (full : Nat)
  | stealing (full rem : Nat)
  deriving DecidableEq, Repr

/-- `full = n div 16`, `rem = n mod 16` (rule R143), the variant chosen once from `rem` (rule R153). -/
def partition (n : Nat) : Partition := if n % 16 = 0 then .whole (n / 16) else .stealing (n / 16) (n % 16)

/-- Blocks `0` to `count-1`, each under its own tweak `T_i = mulx^i(T_0)` (rules R142, R146). -/
def maskedBlocks (f : Block → Block → Block) (count : Nat) (T0 : Block) (X : List Byte) : List Byte :=
  (List.range count).flatMap (fun i => blockBytes (f (blockAt X i) (mulxPow i T0)))

/-- `CC`, the last full block encrypted under `T_{full-1}` (rule R147). -/
def stealEncCC (p : BlockCipher) (K1 : AesKey) (T0 : Block) (full : Nat) (X : List Byte) : Block :=
  XE p K1 (blockAt X (full - 1)) (mulxPow (full - 1) T0)

/-- `PP = P_part || CC[rem..16)` (rule R147). -/
def stealEncPP (full rem : Nat) (X : List Byte) (CC : Block) : Block :=
  blockOfBytes (X.drop (16 * full) ++ (blockBytes CC).drop rem)

/-- ENC_STEAL: `C_0 || ... || C_{full-2} || XE(PP, T_full) || CC[0..rem)` (rule R147). -/
def encSteal (p : BlockCipher) (K1 : AesKey) (T0 : Block) (full rem : Nat) (X : List Byte) : List Byte :=
  let CC := stealEncCC p K1 T0 full X
  let PP := stealEncPP full rem X CC
  maskedBlocks (XE p K1) (full - 1) T0 X ++ blockBytes (XE p K1 PP (mulxPow full T0)) ++ (blockBytes CC).take rem

/-- `PP`, the second-to-last segment decrypted under `T_full` (rule R149). -/
def stealDecPP (p : BlockCipher) (K1 : AesKey) (T0 : Block) (full : Nat) (X : List Byte) : Block :=
  XD p K1 (blockAt X (full - 1)) (mulxPow full T0)

/-- `CC = C_part || PP[rem..16)` (rule R149). -/
def stealDecCC (full rem : Nat) (X : List Byte) (PP : Block) : Block :=
  blockOfBytes (X.drop (16 * full) ++ (blockBytes PP).drop rem)

/-- DEC_STEAL: `P_0 || ... || P_{full-2} || XD(CC, T_{full-1}) || PP[0..rem)` (rule R149). -/
def decSteal (p : BlockCipher) (K1 : AesKey) (T0 : Block) (full rem : Nat) (X : List Byte) : List Byte :=
  let PP := stealDecPP p K1 T0 full X
  let CC := stealDecCC full rem X PP
  maskedBlocks (XD p K1) (full - 1) T0 X ++ blockBytes (XD p K1 CC (mulxPow (full - 1) T0)) ++ (blockBytes PP).take rem

/-- The output of XTS.ENC for input `X` (rules R146, R147). -/
def xtsEncrypt (p : BlockCipher) (K1 : AesKey) (T0 : Block) (X : List Byte) : List Byte :=
  match partition X.length with
  | .whole full => maskedBlocks (XE p K1) full T0 X
  | .stealing full rem => encSteal p K1 T0 full rem X

/-- The output of XTS.DEC for input `X` (rules R148, R149). -/
def xtsDecrypt (p : BlockCipher) (K1 : AesKey) (T0 : Block) (X : List Byte) : List Byte :=
  match partition X.length with
  | .whole full => maskedBlocks (XD p K1) full T0 X
  | .stealing full rem => decSteal p K1 T0 full rem X

/-- The data path of a direction (rules R122, R158, R159). -/
def xtsTransform (p : BlockCipher) : AesDir → AesKey → Block → List Byte → List Byte
  | .enc => xtsEncrypt p
  | .dec => xtsDecrypt p

/-- `T_0 = AESEnc(KEY2, TWEAK)`, the forward direction for both commands (rules R122, R141). -/
def initialTweak (p : BlockCipher) (s : State) : Block := p.enc (aesKey s.key2 s.k2len) (tweakBlock s)

/-- How many tweaks a data unit of `n` bytes uses, `ceil(n/16)` (rule R152). -/
def tweakCount (n : Nat) : Nat := (n + 15) / 16

/-- The stealing intermediates `(CC, PP)` of a data unit, none for whole blocks (rules R147, R149). -/
def stealIntermediates (p : BlockCipher) (dir : AesDir) (K1 : AesKey) (T0 : Block) (X : List Byte) : Block × Block :=
  match partition X.length, dir with
  | .whole _, _ => (0, 0)
  | .stealing full rem, .enc =>
    let CC := stealEncCC p K1 T0 full X
    (CC, stealEncPP full rem X CC)
  | .stealing full rem, .dec =>
    let PP := stealDecPP p K1 T0 full X
    (stealDecCC full rem X PP, PP)

/-- The scratch an XTS operation leaves to be zeroed (rule R157): the last tweak, the stealing
intermediates, a block in flight, both key schedules and the last block's index. -/
def xtsScratch (p : BlockCipher) (dir : AesDir) (s : State) (X : List Byte) : Scratch :=
  let T0 := initialTweak p s
  let K1 := aesKey s.key1 s.k1len
  let last := tweakCount X.length - 1
  let (CC, PP) := stealIntermediates p dir K1 T0 X
  { T := mulxPow last T0, CC := CC, PP := PP, BLK := blockAt X (X.length / 16 - 1),
    KS1 := keySchedule K1, KS2 := keySchedule (aesKey s.key2 s.k2len), I := BitVec.ofNat 8 last }

/-- XTS.ENC and XTS.DEC (rules R158, R159): the checks first, then `DOUT[0..n) <- out`. -/
def xtsCommand (p : BlockCipher) (dir : AesDir) (s : State) : State :=
  match xtsCheck s.duMax s.k1len s.k2len s.len with
  | .ok =>
    let X := dinBytes s s.len.toNat
    finishOk (xtsTransform p dir (aesKey s.key1 s.k1len) (initialTweak p s) X) 0 (loadScratch (xtsScratch p dir s X) s)
  | e => finishErr e s

/-- XTS.ENC (rule R158). -/
def execXtsEnc (s : State) : Host.Outcome State Fault Refusal :=
  .next (xtsCommand aesPrimitive .enc s)

/-- XTS.DEC (rule R159). -/
def execXtsDec (s : State) : Host.Outcome State Fault Refusal :=
  .next (xtsCommand aesPrimitive .dec s)

end Sys2Proof.Machine
end

