-- ==== Sys2Proof/Machine/Dispatch.lean ====
section
/-! DEFINITION. The dispatch of a legal command to its meaning (rule R221): one arm per command. -/

namespace Sys2Proof.Machine

def exec (i : Instr) (s : State) : Host.Outcome State Fault Refusal :=
  match i with
  | .xtsEnc => Sys2Proof.Machine.execXtsEnc s
  | .xtsDec => Sys2Proof.Machine.execXtsDec s
  | .aesEncK1 => Sys2Proof.Machine.execAesEncK1 s
  | .aesEncK2 => Sys2Proof.Machine.execAesEncK2 s
  | .aesDecK1 => Sys2Proof.Machine.execAesDecK1 s
  | .aesDecK2 => Sys2Proof.Machine.execAesDecK2 s
  | .gfMulx => Sys2Proof.Machine.execGfMulx s

end Sys2Proof.Machine
end

