-- ==== Sys2Proof/Machine/Sequencer.lean ====
section
/-! DEFINITION. The engine agent: its completion step (rules R15, R221). -/

namespace Sys2Proof.Machine

/-- The completion step of the command in `hid.CMD` (rule R221): an illegal word completes with ILLEGAL_CMD
(rules R85, R181), a legal one does what its command says. -/
def completionStep (s : State) : Host.Outcome State Fault Refusal :=
  match decode s.hidCmd with
  | .ok i => exec i s
  | .error _ => .next (finishErr .illegalCmd s)

/-- The engine's turn: while RUNNING it has exactly one enabled step, the completion; while IDLE it has
none, and nothing happens (rules R42, R221). -/
def engineTurn (s : State) : Host.Outcome State Fault Refusal :=
  match s.phase with
  | .running => completionStep s
  | .idle => .next s

end Sys2Proof.Machine
end

