-- ==== Sys2Proof/Machine/Step.lean ====
section
/-! DEFINITION. One step of the machine: the agent whose turn it is takes it (rule R15). -/

namespace Sys2Proof.Machine

/-- One step.  `turns` says who moves; once it is used up the engine completes if it is RUNNING, so that
every accepted command completes (rule R227), and else the host moves (DESIGN CHOICE: log entry 5). -/
def step (s : State) : Host.Outcome State Fault Refusal :=
  match s.turns with
  | .host :: ts => hostTurn { s with turns := ts }
  | .engine :: ts => engineTurn { s with turns := ts }
  | .reset :: ts => .next (resetInput { s with turns := ts })
  | [] => if s.busy then engineTurn s else hostTurn s

/-- `s` with a command word accepted, as a CMD write does (rule R30), and the engine to move next: the very
next step completes that command.  This machine fetches no program: `hid.CMD` is where it takes its
instruction from (rules R42, R75; DESIGN CHOICE: log entry 7). -/
def State.withFetchWord (s : State) (nbits w : Nat) : State :=
  { acceptCommand (commandWordOf nbits w) s with turns := .engine :: s.turns }

end Sys2Proof.Machine
end

