-- ==== Sys2Proof/Safety.lean ====
section
/-! DEFINITION. The terms the statements use: the invariant of the machine, what a completion leaves as it
was, and the conditions under which a command has its own effect. -/

namespace Sys2Proof.Machine

/-- The invariant every step keeps: DIN and DOUT are in canonical form; BUSY and DONE never hold together
(rule R25); ERR holds one of the five codes (rule R180, U12); the hidden scratch is zero between steps
(rules R45, R157), since the completion step is one step (rule R221). -/
structure State.Inv (s : State) : Prop where
  memory  : s.mem.wf = true
  phase   : ¬(s.busy = true ∧ s.done = true)
  err     : s.err.toNat ≤ 4
  scratch : s.scratch = Scratch.zero

/-- The inputs the engine never writes hold the same values: CFG, LEN, KEY1, KEY2, TWEAK and DIN (rule
R46); and the engine has the same parameter `P_DU_MAX` (rule R7). -/
structure SameInputs (s t : State) : Prop where
  k1len : t.k1len = s.k1len
  k2len : t.k2len = s.k2len
  ie    : t.ie = s.ie
  len   : t.len = s.len
  key1  : t.key1 = s.key1
  key2  : t.key2 = s.key2
  tweak : t.tweak = s.tweak
  duMax : t.duMax = s.duMax
  din   : ∀ a, DIN ≤ a → a < DIN + bufferSize → readByte t a = readByte s a

/-- The host agent, the schedule and the free-value counters are the same. -/
structure SameHost (s t : State) : Prop where
  program       : t.program = s.program
  lastRead      : t.lastRead = s.lastRead
  rdMismatch    : t.rdMismatch = s.rdMismatch
  turns         : t.turns = s.turns
  resets        : t.resets = s.resets
  busyDoutReads : t.busyDoutReads = s.busyDoutReads

/-- Every piece of the engine is the same: each register, each byte of DIN and DOUT, each hidden register. -/
structure SameEngine (s t : State) : Prop where
  inputs  : SameInputs s t
  busy    : t.busy = s.busy
  done    : t.done = s.done
  cmdLost : t.cmdLost = s.cmdLost
  wrIgn   : t.wrIgn = s.wrIgn
  err     : t.err = s.err
  hidCmd  : t.hidCmd = s.hidCmd
  scratch : t.scratch = s.scratch
  memory  : ∀ a, readByte t a = readByte s a

/-- `t` is `s` after a completion with code `e` that wrote DOUT[0..n) and nothing else (rules R45, R46, R183):
BUSY is 0, DONE is 1, ERR is the code, the scratch is zero, and every byte outside DOUT[0..n), every input,
CMD_LOST, WR_IGN, `hid.CMD` and the host are as they were.  What DOUT[0..n) holds is not said here. -/
structure Completed (e : ErrCode) (n : Nat) (s t : State) : Prop where
  busy    : t.busy = false
  done    : t.done = true
  err     : t.err = e.code
  scratch : t.scratch = Scratch.zero
  cmdLost : t.cmdLost = s.cmdLost
  wrIgn   : t.wrIgn = s.wrIgn
  hidCmd  : t.hidCmd = s.hidCmd
  inputs  : SameInputs s t
  host    : SameHost s t
  memory  : ∀ a, a < DOUT ∨ DOUT + n ≤ a → readByte t a = readByte s a

/-- The registers an XTS command accepts (rule R140): both length codes 0 or both 2, and 16 to `P_DU_MAX`
bytes. -/
def XtsAccepts (s : State) : Prop :=
  (s.k1len = 0#2 ∨ s.k1len = 2#2) ∧ s.k2len = s.k1len ∧ 16 ≤ s.len.toNat ∧ s.len.toNat ≤ s.duMax

/-- The code an XTS command finishes with, the checks of rule R140 in their order. -/
def xtsVerdict (s : State) : ErrCode :=
  if (s.k1len ≠ 0#2 ∧ s.k1len ≠ 2#2) ∨ (s.k2len ≠ 0#2 ∧ s.k2len ≠ 2#2) then .invalidParam
  else if s.k1len ≠ s.k2len then .invalidParam
  else if s.len = 0#32 then .invalidParam
  else if s.len < 16#32 then .unsupportedDuSize
  else if s.duMax < s.len.toNat then .invalidParam
  else .ok

/-- The code an AES command finishes with under the length code of its key (rules R181, R182). -/
def keyVerdict (code : BitVec 2) : ErrCode :=
  if code = 3#2 then .invalidParam else if code = 1#2 then .primFail else .ok

/-- The code the operation of the word in `hid.CMD` completes with, the causes of rule R181 in the order of
rule R182, by the words of rule R88. -/
def completionCode (s : State) : ErrCode :=
  if s.hidCmd = 0x1#32 ∨ s.hidCmd = 0x2#32 then xtsVerdict s
  else if s.hidCmd = 0x3#32 ∨ s.hidCmd = 0x4#32 then keyVerdict s.k1len
  else if s.hidCmd = 0x13#32 ∨ s.hidCmd = 0x14#32 then keyVerdict s.k2len
  else if s.hidCmd = 0x5#32 then .ok
  else .illegalCmd

/-- The window offsets of the input registers and DIN: CFG, LEN, KEY1_x, KEY2_x, TWEAK_x, DIN (rules R21,
R222). -/
def InputOffset (off : Nat) : Prop :=
  off = 0x000C ∨ off = 0x0010 ∨ (0x0040 ≤ off ∧ off ≤ 0x008C) ∨ (0x1000 ≤ off ∧ off ≤ 0x1FFC)

/-- The reserved offsets of the window (rules R21, R41). -/
def ReservedOffset (off : Nat) : Prop :=
  (0x0018 ≤ off ∧ off ≤ 0x003C) ∨ (0x0090 ≤ off ∧ off ≤ 0x0FFC) ∨ (0x3000 ≤ off ∧ off ≤ 0x3FFC)

/-- The key that a key file holds under length code 0 or 2, word by word: words 0 to 3, which are bytes 0 to
15, for code 0, and all eight words, bytes 0 to 31, for code 2 (rules R32, R34 to R36; word 0 holds the bytes of
lowest index, in its low bits).  The statements use it with these two codes only. -/
def keyPrefix (raw : Vector Word 8) (code : BitVec 2) : AesKey :=
  if code = 0#2 then .aes128 (raw[3] ++ raw[2] ++ raw[1] ++ raw[0])
  else .aes256 (raw[7] ++ raw[6] ++ raw[5] ++ raw[4] ++ raw[3] ++ raw[2] ++ raw[1] ++ raw[0])

/-- The 16 bytes of TWEAK, word by word (rule R37). -/
def tweakValue (s : State) : Block := s.tweak[3] ++ s.tweak[2] ++ s.tweak[1] ++ s.tweak[0]

/-- The key of KEY1 and the initial tweak block of the commands of this hardware (rules R36, R141). -/
def dataKey (s : State) : AesKey := keyPrefix s.key1 s.k1len
def firstTweak (s : State) : Block := aesPrimitive.enc (keyPrefix s.key2 s.k2len) (tweakValue s)

/-- Full block `i` of DIN before a command and of DOUT after it (rule R143). -/
def dinBlockAt (s : State) (i : Nat) : Block := blockOfBytes (readBytes s (DIN + 16 * i) 16)
def doutBlockAt (s : State) (i : Nat) : Block := blockOfBytes (readBytes s (DOUT + 16 * i) 16)

/-- `XE` and `XD` of this hardware under KEY1, written out (rules R144, R145). -/
def maskEnc (s : State) (B T : Block) : Block := aesPrimitive.enc (dataKey s) (B ^^^ T) ^^^ T
def maskDec (s : State) (B T : Block) : Block := aesPrimitive.dec (dataKey s) (B ^^^ T) ^^^ T

/-- The tweak of block `i`, `mulx^i(T_0)` (rule R142). -/
def tweakAt (s : State) (i : Nat) : Block := mulxPow i (firstTweak s)

end Sys2Proof.Machine
end

