-- ==== Sys2Proof/Certificates/Slice0/Obligations.lean ====
section
/-! DEFINITION. The statements for the provers: what the numbered rules of the spec say the commands and the
machine do. -/

open Sys2Proof Sys2Proof.Machine

/-! ### Encoding -/

/-- A few command words, written out from rule R88 in the byte lanes of rule R64, decode to their commands. -/
def Obligations.CommandWordsDecode : Prop :=
  decodeBytes [0x01#8, 0x00#8, 0x00#8, 0x00#8] = .ok (.xtsEnc, []) ∧
  decodeBytes [0x02#8, 0x00#8, 0x00#8, 0x00#8] = .ok (.xtsDec, []) ∧
  decodeBytes [0x13#8, 0x00#8, 0x00#8, 0x00#8] = .ok (.aesEncK2, []) ∧
  decodeBytes [0x04#8, 0x00#8, 0x00#8, 0x00#8] = .ok (.aesDecK1, []) ∧
  decodeBytes [0x05#8, 0x00#8, 0x00#8, 0x00#8] = .ok (.gfMulx, [])

/-- Decoding and encoding agree both ways: the bytes of a well-formed command decode to it and leave the
rest, and the only word that decodes to a command is its own (rules R82, R88). -/
def Obligations.DecodeAndEncodeAgree : Prop :=
  (∀ (i : Instr) (rest : List Byte), i.wellFormed = true → decodeBytes (encodeBytes i ++ rest) = .ok (i, rest)) ∧
  (∀ (c : Word) (i : Instr), decode c = .ok i ↔ c = encode i)

/-- Rule R87: decoding is total, every word is one of the seven commands or illegal, and the rows of the
opcode map do not overlap since their OP values differ. -/
def Obligations.DecodingIsTotalAndUnambiguous : Prop :=
  (∀ c : Word, (∃! i : Instr, decode c = .ok i) ∨ decode c = .error (.illegalCommand c)) ∧
  (∀ c : Word, legal c = true ↔ ∃ i : Instr, decode c = .ok i) ∧
  opcodeMap.Pairwise (fun r q => opField r.pattern ≠ opField q.pattern ∧
    ∀ c : Word, ¬(c &&& r.mask = r.pattern ∧ c &&& q.mask = q.pattern))

/-- Rule R85: which words are illegal; an illegal word is accepted like any other and completes with
ILLEGAL_CMD and no DOUT write. -/
def Obligations.IllegalWordsCompleteWithIllegalCmd : Prop :=
  (∀ c : Word, legal c = false ↔
    (opField c = 0#4 ∨ 6 ≤ (opField c).toNat ∨ rsvdField c ≠ 0#27 ∨
      (keySelField c = true ∧ (opField c = 1#4 ∨ opField c = 2#4 ∨ opField c = 5#4)))) ∧
  (∀ (c : Word) (s : State), legal c = false → s.busy = false →
    busWrite 0x0008 c s = { s with hidCmd := c, done := false, busy := true }) ∧
  (∀ s : State, legal s.hidCmd = false → ∃ t, completionStep s = .next t ∧ Completed .illegalCmd 0 s t)

/-! ### The step -/

/-- A step is one agent's turn.  While RUNNING, a scheduled engine turn, or the next step once the schedule is
used up, is `exec` of the command that `hid.CMD` decodes to; while IDLE an engine turn only uses up the
turn; a scheduled host turn, or the next step of an IDLE machine once the schedule is used up, is the host's. -/
def Obligations.StepRunsTheDecodedCommand : Prop :=
  (∀ (s : State) (i : Instr), decode s.hidCmd = .ok i →
    (∀ ts, s.busy = true → s.turns = .engine :: ts → step s = exec i { s with turns := ts }) ∧
    (s.busy = true → s.turns = [] → step s = exec i s)) ∧
  (∀ s : State,
    (∀ ts, s.busy = false → s.turns = .engine :: ts → step s = .next { s with turns := ts }) ∧
    (∀ ts, s.turns = .host :: ts → step s = hostTurn { s with turns := ts }) ∧
    (s.busy = false → s.turns = [] → step s = hostTurn s))

/-- Storing a command's word where the machine takes its instruction from makes the very next step run it. -/
def Obligations.FetchWordRunsNext : Prop :=
  ∀ (s : State) (i : Instr),
    step (s.withFetchWord 32 (encode i).toNat) = exec i { s with hidCmd := encode i, done := false, busy := true }

/-! ### The commands complete -/

/-- GF.MULX completes with OK from every state, and DOUT[0..16) is the product of TWEAK and α. -/
def Obligations.GfMulxCompletes : Prop :=
  ∀ s : State, ∃ t, exec .gfMulx s = .next t ∧ Completed .ok 16 s t ∧
    readBytes t DOUT 16 = mulxBytes (registerBytes s.tweak)

/-- AES.ENC k1 and AES.ENC k2 complete with OK when the selected key's code is 0 or 2, whatever the other
key's code is, and DOUT[0..16) is the encryption of DIN[0..16) under that key: bytes 0 to 15 of the selected
key file for code 0 and all 32 for code 2. -/
def Obligations.AesEncCompletes : Prop :=
  ∀ s : State,
    (s.k1len = 0#2 ∨ s.k1len = 2#2 → ∃ t, exec .aesEncK1 s = .next t ∧ Completed .ok 16 s t ∧
      doutBlockAt t 0 = aesPrimitive.enc (keyPrefix s.key1 s.k1len) (dinBlockAt s 0)) ∧
    (s.k2len = 0#2 ∨ s.k2len = 2#2 → ∃ t, exec .aesEncK2 s = .next t ∧ Completed .ok 16 s t ∧
      doutBlockAt t 0 = aesPrimitive.enc (keyPrefix s.key2 s.k2len) (dinBlockAt s 0))

/-- AES.DEC k1 and AES.DEC k2, as AES.ENC with the inverse function, under the same bytes of the selected key
file. -/
def Obligations.AesDecCompletes : Prop :=
  ∀ s : State,
    (s.k1len = 0#2 ∨ s.k1len = 2#2 → ∃ t, exec .aesDecK1 s = .next t ∧ Completed .ok 16 s t ∧
      doutBlockAt t 0 = aesPrimitive.dec (keyPrefix s.key1 s.k1len) (dinBlockAt s 0)) ∧
    (s.k2len = 0#2 ∨ s.k2len = 2#2 → ∃ t, exec .aesDecK2 s = .next t ∧ Completed .ok 16 s t ∧
      doutBlockAt t 0 = aesPrimitive.dec (keyPrefix s.key2 s.k2len) (dinBlockAt s 0))

/-- The AES commands' error codes: INVALID_PARAM when the selected code is 3, PRIM_FAIL when it is 1, and
DOUT is untouched; the other key's code does not matter. -/
def Obligations.AesKeyCodeVerdicts : Prop :=
  ∀ (s : State),
    (∀ i ∈ [Instr.aesEncK1, Instr.aesDecK1],
      (s.k1len = 3#2 → ∃ t, exec i s = .next t ∧ Completed .invalidParam 0 s t) ∧
      (s.k1len = 1#2 → ∃ t, exec i s = .next t ∧ Completed .primFail 0 s t)) ∧
    (∀ i ∈ [Instr.aesEncK2, Instr.aesDecK2],
      (s.k2len = 3#2 → ∃ t, exec i s = .next t ∧ Completed .invalidParam 0 s t) ∧
      (s.k2len = 1#2 → ∃ t, exec i s = .next t ∧ Completed .primFail 0 s t))

/-- Rule R123: the wrapper fails exactly for length code 1, whatever the key and the block, and PRIM_FAIL
arises only from AES.ENC and AES.DEC. -/
def Obligations.PrimFailExactlyForCodeOne : Prop :=
  (∀ (p : BlockCipher) (dir : AesDir) (raw : Vector Word 8) (code : BitVec 2) (B : Block),
    aesw p dir raw code B = none ↔ code = 1#2) ∧
  (∀ (i : Instr) (s t : State), exec i s = .next t → t.err = 0x3#4 →
    ((i = .aesEncK1 ∨ i = .aesDecK1) ∧ s.k1len = 1#2) ∨ ((i = .aesEncK2 ∨ i = .aesDecK2) ∧ s.k2len = 1#2))

/-- Rule R146: XTS.ENC of whole blocks completes, and block `i` of DOUT is `XE(P_i, T_i)`. -/
def Obligations.XtsEncWholeBlocks : Prop :=
  ∀ s : State, XtsAccepts s → s.len.toNat % 16 = 0 →
    ∃ t, exec .xtsEnc s = .next t ∧ Completed .ok s.len.toNat s t ∧
      ∀ i < s.len.toNat / 16, doutBlockAt t i = maskEnc s (dinBlockAt s i) (tweakAt s i)

/-- Rule R147: XTS.ENC with ciphertext stealing completes; the blocks before the last full one are normal, CC
is the last full block under `T_{full-1}`, PP is the partial plaintext padded with the tail of CC, `XE(PP,
T_full)` stands second to last and the head of CC last. -/
def Obligations.XtsEncStealing : Prop :=
  ∀ s : State, XtsAccepts s → s.len.toNat % 16 ≠ 0 →
    let full := s.len.toNat / 16
    let rem := s.len.toNat % 16
    let CC := maskEnc s (dinBlockAt s (full - 1)) (tweakAt s (full - 1))
    let PP := blockOfBytes (readBytes s (DIN + 16 * full) rem ++ (blockBytes CC).drop rem)
    ∃ t, exec .xtsEnc s = .next t ∧ Completed .ok s.len.toNat s t ∧
      (∀ i < full - 1, doutBlockAt t i = maskEnc s (dinBlockAt s i) (tweakAt s i)) ∧
      doutBlockAt t (full - 1) = maskEnc s PP (tweakAt s full) ∧
      readBytes t (DOUT + 16 * full) rem = (blockBytes CC).take rem

/-- Rule R148: XTS.DEC of whole blocks completes, and block `i` of DOUT is `XD(C_i, T_i)`. -/
def Obligations.XtsDecWholeBlocks : Prop :=
  ∀ s : State, XtsAccepts s → s.len.toNat % 16 = 0 →
    ∃ t, exec .xtsDec s = .next t ∧ Completed .ok s.len.toNat s t ∧
      ∀ i < s.len.toNat / 16, doutBlockAt t i = maskDec s (dinBlockAt s i) (tweakAt s i)

/-- Rule R149: XTS.DEC with ciphertext stealing completes; PP is the second-to-last segment under `T_full`, CC
is rebuilt from its head and the tail kept in PP, and the last full block is `XD(CC, T_{full-1})`. -/
def Obligations.XtsDecStealing : Prop :=
  ∀ s : State, XtsAccepts s → s.len.toNat % 16 ≠ 0 →
    let full := s.len.toNat / 16
    let rem := s.len.toNat % 16
    let PP := maskDec s (dinBlockAt s (full - 1)) (tweakAt s full)
    let CC := blockOfBytes (readBytes s (DIN + 16 * full) rem ++ (blockBytes PP).drop rem)
    ∃ t, exec .xtsDec s = .next t ∧ Completed .ok s.len.toNat s t ∧
      (∀ i < full - 1, doutBlockAt t i = maskDec s (dinBlockAt s i) (tweakAt s i)) ∧
      doutBlockAt t (full - 1) = maskDec s CC (tweakAt s (full - 1)) ∧
      readBytes t (DOUT + 16 * full) rem = (blockBytes PP).take rem

/-- Rule R140: an XTS command finishes with the first code that applies, in the order of `xts_check`; an error
writes no DOUT byte, and no AES call happens before the checks accept: the result is the same for every
primitive. -/
def Obligations.XtsChecksInOrder : Prop :=
  ∀ (s : State) (i : Instr), i = .xtsEnc ∨ i = .xtsDec →
    ∃ t, exec i s = .next t ∧ t.err = (xtsVerdict s).code ∧
      (xtsVerdict s ≠ .ok → Completed (xtsVerdict s) 0 s t ∧
        ∀ (p q : BlockCipher) (dir : AesDir), xtsCommand p dir s = xtsCommand q dir s)

/-! ### Laws of the data paths and of the primitive -/

/-- Rule R151: decryption undoes encryption and encryption undoes decryption, for every primitive that obeys
the law of rule R120 (a), every key, every first tweak and every data unit of 16 bytes or more. -/
def Obligations.XtsRoundTrip : Prop :=
  ∀ (p : BlockCipher), p.Lawful → ∀ (K1 : AesKey) (T0 : Block) (X : List Byte), 16 ≤ X.length →
    xtsDecrypt p K1 T0 (xtsEncrypt p K1 T0 X) = X ∧ xtsEncrypt p K1 T0 (xtsDecrypt p K1 T0 X) = X

/-- The round trip on the machine: when one XTS command completes with OK and the other runs on its output
in an engine of the same `P_DU_MAX` with the same key codes, keys, tweak and length, DOUT[0..n) holds the
first command's input. -/
def Obligations.XtsMachineRoundTrip : Prop :=
  ∀ (i j : Instr), (i = .xtsEnc ∧ j = .xtsDec) ∨ (i = .xtsDec ∧ j = .xtsEnc) →
    ∀ (s t u v : State), exec i s = .next t → t.err = 0x0#4 →
      u.k1len = s.k1len → u.k2len = s.k2len → u.key1 = s.key1 → u.key2 = s.key2 → u.tweak = s.tweak →
      u.len = s.len → u.duMax = s.duMax → (∀ k < s.len.toNat, readByte u (DIN + k) = readByte t (DOUT + k)) →
      exec j u = .next v →
      v.err = 0x0#4 ∧ ∀ k < s.len.toNat, readByte v (DOUT + k) = readByte s (DIN + k)

/-- The primitive of this hardware obeys the law of rule R120 (a).  That it is FIPS-197 AES is decision D25, and
its rounds are the model's (log entry 1). -/
def Obligations.AesPrimitiveObeysItsLaw : Prop :=
  ∀ (K : AesKey) (B : Block),
    aesPrimitive.dec K (aesPrimitive.enc K B) = B ∧ aesPrimitive.enc K (aesPrimitive.dec K B) = B

/-- Rule R145: the inverse block transform undoes the forward one and the other way round. -/
def Obligations.MaskedTransformsAreInverse : Prop :=
  ∀ (p : BlockCipher), p.Lawful → ∀ (K1 : AesKey) (B T : Block),
    XD p K1 B T = p.dec K1 (B ^^^ T) ^^^ T ∧
    XD p K1 (XE p K1 B T) T = B ∧ XE p K1 (XD p K1 B T) T = B

/-- Rule R150: an XTS command that finishes OK writes DOUT[0..n) and no other byte, and what it writes has the
length of its input, for every primitive, key, tweak and data unit. -/
def Obligations.XtsPreservesLength : Prop :=
  (∀ (p : BlockCipher) (K1 : AesKey) (T0 : Block) (X : List Byte), 16 ≤ X.length →
    (xtsEncrypt p K1 T0 X).length = X.length ∧ (xtsDecrypt p K1 T0 X).length = X.length) ∧
  (∀ (i : Instr) (s t : State), i = .xtsEnc ∨ i = .xtsDec → exec i s = .next t → t.err = 0x0#4 →
    (∃ out : List Byte, out.length = s.len.toNat ∧ readBytes t DOUT s.len.toNat = out ∧
      t.mem = s.mem.writeBytes DOUT out) ∧
    ∀ a, a < DOUT ∨ DOUT + s.len.toNat ≤ a → readByte t a = readByte s a)

/-- A 16-byte key reads only the first four words of its key file, for every command and whatever the other
key's code is: states whose KEY1 files are equal, or agree in KEY1_0 to KEY1_3 while K1LEN is 0, and whose KEY2
files are equal, or agree in KEY2_0 to KEY2_3 while K2LEN is 0, give the same code and the same DOUT. -/
def Obligations.ShortKeyIgnoresUpperWords : Prop :=
  ∀ (i : Instr) (s : State) (w1 w2 : Vector Word 8),
    (w1 = s.key1 ∨ (s.k1len = 0#2 ∧ ∀ j : Fin 8, j.val < 4 → w1[j] = s.key1[j])) →
    (w2 = s.key2 ∨ (s.k2len = 0#2 ∧ ∀ j : Fin 8, j.val < 4 → w2[j] = s.key2[j])) →
    ∃ t u, exec i s = .next t ∧ exec i { s with key1 := w1, key2 := w2 } = .next u ∧
      u.err = t.err ∧ u.mem = t.mem

/-! ### What completions reveal and change -/

/-- Rule R16: the result of a command depends only on the command and on the register and buffer contents: two
states that agree on CFG, LEN, KEY1, KEY2, TWEAK, DIN and DOUT, whatever their other registers hold, complete
with the same code and the same DOUT. -/
def Obligations.OperationsAreIndependent : Prop :=
  ∀ (i : Instr) (s u : State), SameInputs s u →
    (∀ a, DOUT ≤ a → a < DOUT + bufferSize → readByte u a = readByte s a) →
    ∃ t v, exec i s = .next t ∧ exec i u = .next v ∧ v.err = t.err ∧
      ∀ a, DOUT ≤ a → a < DOUT + bufferSize → readByte v a = readByte t a

/-- Rule R186: in engines of one `P_DU_MAX`, the code of an operation depends only on the command word, the key
length codes and LEN, never on key, tweak or data bytes, and so does its latency. -/
def Obligations.ErrorsRevealNothingSecret : Prop :=
  ∀ s u : State, u.hidCmd = s.hidCmd → u.k1len = s.k1len → u.k2len = s.k2len → u.len = s.len →
    u.duMax = s.duMax → u.latency = s.latency ∧
    ∃ t v, completionStep s = .next t ∧ completionStep u = .next v ∧ v.err = t.err

/-- Every completion step, of a legal word or not, ends in a next state: BUSY falls, DONE rises, ERR holds the
code, the hidden scratch is zeroed, at most DOUT[0..4096) is written, no byte of it on an error, and every
input, CMD_LOST, WR_IGN, `hid.CMD`, the host and every other byte stay as they were. -/
def Obligations.CompletionStepFinishes : Prop :=
  ∀ s : State, ∃ (t : State) (e : ErrCode) (n : Nat),
    completionStep s = .next t ∧ Completed e n s t ∧ n ≤ 4096 ∧ (e ≠ .ok → n = 0)

/-- Rule R184: a completion with a code other than OK writes no byte of DOUT and changes no register other than
STATUS. -/
def Obligations.ErrorCompletionWritesNothing : Prop :=
  ∀ s t : State, completionStep s = .next t → t.err ≠ 0x0#4 →
    (∀ a, readByte t a = readByte s a) ∧ SameInputs s t ∧ t.hidCmd = s.hidCmd

/-- Rule R46: the engine writes only BUSY, DONE, ERR, DOUT and its hidden state. -/
def Obligations.EngineWritesOnlyStatusAndOutput : Prop :=
  ∀ s t : State, engineTurn s = .next t →
    SameInputs s t ∧ t.cmdLost = s.cmdLost ∧ t.wrIgn = s.wrIgn ∧ SameHost s t ∧
    ∀ a, a < DOUT ∨ DOUT + bufferSize ≤ a → readByte t a = readByte s a

/-- The hidden scratch is zero after every completion, whatever it held, on success and on every error (rules
R45, R127, R157). -/
def Obligations.ScratchIsZeroedAtCompletion : Prop :=
  ∀ s t : State, completionStep s = .next t → t.scratch = Scratch.zero

/-- Every accepted operation completes (rule R227): from any RUNNING state whose host program makes only
accesses that rule R61 allows and whose schedule holds no reset, the engine completes within one step more
than the schedule is long.  The schedule and so the bound are the model's (log entry 5). -/
def Obligations.EveryAcceptedOperationCompletes : Prop :=
  ∀ s : State, s.busy = true → s.program.wellFormed = true → (∀ x ∈ s.turns, x ≠ Turn.reset) →
    ∃ (k : Nat) (t : State), k ≤ s.turns.length ∧ Sys2Proof.core.run (k + 1) s = .next t ∧
      t.busy = false ∧ t.done = true

/-! ### The bus -/

/-- Rule R62: an access in the window that is not 32 bits wide or not at a multiple of 4 is not performed: it
gets the bus error, at the bus and at the host's turn; every other access of the window is performed, as the
write or the read of its offset. -/
def Obligations.MalformedAccessGetsBusError : Prop :=
  (∀ (a : Access) (s : State), a.off < 0x4000 → (a.width ≠ 4 ∨ a.off % 4 ≠ 0) →
    hostAccess a s = .fault (.busError a.off)) ∧
  (∀ (a : Access) (rest : HostProgram) (s : State), s.program = .bus a rest → a.off < 0x4000 →
    (a.width ≠ 4 ∨ a.off % 4 ≠ 0) → hostTurn s = .fault (.busError a.off)) ∧
  (∀ (off : Nat) (v : Word) (s : State), off < 0x4000 → off % 4 = 0 →
    hostAccess ⟨off, 4, some v⟩ s = .next (busWrite off v s) ∧
    hostAccess ⟨off, 4, none⟩ s = .next (busRead off s))

/-- Rule R69: host reads have no side effect on the engine at any offset and are idempotent, but for DOUT reads
while BUSY = 1. -/
def Obligations.ReadsHaveNoSideEffects : Prop :=
  ∀ (off : Nat) (s : State), SameEngine s (busRead off s) ∧
    ∀ off' : Nat, ¬(s.busy = true ∧ 0x2000 ≤ off' ∧ off' < 0x3000) →
      busReadValue off' (busRead off s) = busReadValue off' s

/-- The words that no host access or command changes: ID, DUMAX, which reads the engine's `P_DU_MAX`, CMD and the
write-only key registers, which read 0; and writes to ID, DUMAX and DOUT are ignored with no side effect. -/
def Obligations.ConstantAndReadOnlyRegisters : Prop :=
  ∀ (s : State) (v : Word),
    busReadValue 0x0000 s = 0x58545331#32 ∧ busReadValue 0x0014 s = BitVec.ofNat 32 s.duMax ∧ busReadValue 0x0008 s = 0#32 ∧
    (∀ off, 0x0040 ≤ off → off ≤ 0x007C → busReadValue off s = 0#32) ∧
    busWrite 0x0000 v s = s ∧ busWrite 0x0014 v s = s ∧ (∀ off, 0x2000 ≤ off → off ≤ 0x2FFC → busWrite off v s = s)

/-- Rule R41: a reserved offset reads 0, and a write to it is ignored and sets no flag. -/
def Obligations.ReservedOffsetsReadZeroIgnoreWrites : Prop :=
  ∀ (off : Nat) (s : State) (v : Word), ReservedOffset off → busReadValue off s = 0#32 ∧ busWrite off v s = s

/-- The bits of a STATUS read: BUSY, DONE, CMD_LOST, WR_IGN in bits 0 to 3, ERR in bits 7:4, and 0 above. -/
def Obligations.StatusWordLayout : Prop :=
  ∀ s : State, let w := busReadValue 0x0004 s
    w.getLsbD 0 = s.busy ∧ w.getLsbD 1 = s.done ∧ w.getLsbD 2 = s.cmdLost ∧ w.getLsbD 3 = s.wrIgn ∧
    w.extractLsb' 4 4 = s.err ∧ w.extractLsb' 8 24 = 0#24

/-- Rule R29: a STATUS write clears DONE, CMD_LOST and WR_IGN where bits 1, 2 and 3 are 1, whether or not BUSY
= 1; everything else is unchanged, so every other bit of the word is ignored and WR_IGN is never set; and a
read has no side effect. -/
def Obligations.StatusWriteClearsFlags : Prop :=
  ∀ (v : Word) (s : State), let t := busWrite 0x0004 v s
    t.done = (if v.getLsbD 1 then false else s.done) ∧
    t.cmdLost = (if v.getLsbD 2 then false else s.cmdLost) ∧
    t.wrIgn = (if v.getLsbD 3 then false else s.wrIgn) ∧
    SameEngine { s with done := t.done, cmdLost := t.cmdLost, wrIgn := t.wrIgn } t ∧ SameHost s t ∧
    SameEngine s (busRead 0x0004 s)

/-- Rule R187: a CMD write while BUSY = 1 is dropped and sets CMD_LOST; it changes nothing else, so not ERR,
DONE, `hid.CMD` or the operation in progress, and raises no interrupt. -/
def Obligations.CmdWriteWhileBusyIsDropped : Prop :=
  ∀ (v : Word) (s : State), s.busy = true →
    busWrite 0x0008 v s = { s with cmdLost := true } ∧ (busWrite 0x0008 v s).irq = s.irq

/-- Rule R30: a CMD read returns 0.  A CMD write while BUSY = 1 sets CMD_LOST and nothing else; while BUSY = 0
any word is accepted: it is captured in `hid.CMD`, DONE falls, BUSY rises, and nothing else changes, not ERR
and not CMD_LOST. -/
def Obligations.CmdWriteIsAcceptedOrDropped : Prop :=
  ∀ (v : Word) (s : State),
    busReadValue 0x0008 s = 0#32 ∧
    (s.busy = true → busWrite 0x0008 v s = { s with cmdLost := true }) ∧
    (s.busy = false → busWrite 0x0008 v s = { s with hidCmd := v, done := false, busy := true })

/-- Rule R222: a write to CFG, LEN, KEY1_x, KEY2_x, TWEAK_x or DIN while BUSY = 1 is ignored and sets WR_IGN;
the inputs of the running operation stay as they are. -/
def Obligations.InputWriteWhileBusyIsIgnored : Prop :=
  ∀ (off : Nat) (v : Word) (s : State), s.busy = true → InputOffset off →
    busWrite off v s = { s with wrIgn := true } ∧ SameInputs s (busWrite off v s)

/-- A CFG write while BUSY = 0 reads back as its defined bits, K1LEN, K2LEN and IE, every code storable; LEN
reads back as written; nothing else of the engine changes. -/
def Obligations.CfgAndLenReadBack : Prop :=
  ∀ (v : Word) (s : State), s.busy = false →
    busReadValue 0x000C (busWrite 0x000C v s) = (v &&& 0x0000010F#32) ∧
    busReadValue 0x0010 (busWrite 0x0010 v s) = v ∧
    busWrite 0x000C v s = { s with k1len := (busWrite 0x000C v s).k1len, k2len := (busWrite 0x000C v s).k2len,
                                   ie := v.getLsbD 8 } ∧
    busWrite 0x0010 v s = { s with len := v }

/-- Rules R34 and R35: a write to KEY1_j or KEY2_j while BUSY = 0 stores its four bytes, byte `4j + b` of the key
file being bits `8b+7 : 8b`, and leaves the other bytes of the file and everything else as they were; a read
returns 0. -/
def Obligations.KeyWriteStoresFourBytes : Prop :=
  ∀ (j : Nat) (v : Word) (s : State), j < 8 → s.busy = false →
    (∃ k : Vector Word 8, busWrite (0x0040 + 4 * j) v s = { s with key1 := k } ∧
      (∀ b < 4, (registerBytes k).getD (4 * j + b) 0#8 = v.extractLsb' (8 * b) 8) ∧
      (∀ a, a < 4 * j ∨ 4 * j + 4 ≤ a → (registerBytes k).getD a 0#8 = (registerBytes s.key1).getD a 0#8) ∧
      busReadValue (0x0040 + 4 * j) { s with key1 := k } = 0#32) ∧
    (∃ k : Vector Word 8, busWrite (0x0060 + 4 * j) v s = { s with key2 := k } ∧
      (∀ b < 4, (registerBytes k).getD (4 * j + b) 0#8 = v.extractLsb' (8 * b) 8) ∧
      (∀ a, a < 4 * j ∨ 4 * j + 4 ≤ a → (registerBytes k).getD a 0#8 = (registerBytes s.key2).getD a 0#8) ∧
      busReadValue (0x0060 + 4 * j) { s with key2 := k } = 0#32)

/-- A write to TWEAK_j while BUSY = 0 stores its four bytes as the key registers do and reads back as written. -/
def Obligations.TweakWriteReadsBack : Prop :=
  ∀ (j : Nat) (v : Word) (s : State), j < 4 → s.busy = false →
    ∃ k : Vector Word 4, busWrite (0x0080 + 4 * j) v s = { s with tweak := k } ∧
      (∀ b < 4, (registerBytes k).getD (4 * j + b) 0#8 = v.extractLsb' (8 * b) 8) ∧
      (∀ a, a < 4 * j ∨ 4 * j + 4 ≤ a → (registerBytes k).getD a 0#8 = (registerBytes s.tweak).getD a 0#8) ∧
      busReadValue (0x0080 + 4 * j) { s with tweak := k } = v

/-- A DIN write while BUSY = 0 stores the four byte lanes of the word at its offset, reads back as written, and
leaves every other byte and every register as it was. -/
def Obligations.DinWriteReadsBack : Prop :=
  ∀ (off : Nat) (v : Word) (s : State), 0x1000 ≤ off → off ≤ 0x1FFC → s.busy = false →
    let t := busWrite off v s
    busReadValue off t = v ∧
    (∀ b < 4, readByte t (off + b) = v.extractLsb' (8 * b) 8) ∧
    (∀ a, a < off ∨ off + 4 ≤ a → readByte t a = readByte s a) ∧
    t = { s with mem := t.mem }

/-- A DOUT read while BUSY = 1 returns a free value, another one for each read; after completion DOUT reads are
the stored bytes.  The free value is the model's (log entry 3). -/
def Obligations.DoutReadWhileBusyIsFree : Prop :=
  ∀ (off : Nat) (s : State), 0x2000 ≤ off → off ≤ 0x2FFC →
    (s.busy = true → busReadValue off s = Config.busyDoutDraw s.busyDoutReads ∧
      (busRead off s).busyDoutReads = s.busyDoutReads + 1) ∧
    (s.busy = false → busReadValue off s = wordOfBytes (readBytes s off 4) ∧
      (busRead off s).busyDoutReads = s.busyDoutReads)

/-! ### Flags, interrupt and reset -/

/-- Rules R26 and R27: what a host write does to CMD_LOST and WR_IGN, exactly; a host read and an engine turn
leave both, and reset clears both. -/
def Obligations.StickyFlagsChangeOnlyAsStated : Prop :=
  (∀ (off : Nat) (v : Word) (s : State),
    ((busWrite off v s).cmdLost = true ↔
      (s.cmdLost = true ∧ ¬(off = 0x0004 ∧ v.getLsbD 2 = true)) ∨ (off = 0x0008 ∧ s.busy = true))) ∧
  (∀ (off : Nat) (v : Word) (s : State), off % 4 = 0 →
    ((busWrite off v s).wrIgn = true ↔
      (s.wrIgn = true ∧ ¬(off = 0x0004 ∧ v.getLsbD 3 = true)) ∨ (InputOffset off ∧ s.busy = true))) ∧
  (∀ (off : Nat) (s : State), (busRead off s).cmdLost = s.cmdLost ∧ (busRead off s).wrIgn = s.wrIgn) ∧
  (∀ s t : State, engineTurn s = .next t → t.cmdLost = s.cmdLost ∧ t.wrIgn = s.wrIgn) ∧
  (∀ s : State, (resetInput s).cmdLost = false ∧ (resetInput s).wrIgn = false)

/-- What each host access, engine turn and reset does to BUSY, DONE and ERR: a host write raises BUSY only at CMD
and never lowers it, lowers DONE only by acceptance or by bit 1 of a STATUS write and never raises it, and never
writes ERR; a host read and the turn of an IDLE engine leave all three; the turn of a RUNNING engine lowers BUSY,
raises DONE and writes to ERR the code of rules R181 and R182; reset clears all three. -/
def Obligations.BusyDoneErrChangeOnlyAsStated : Prop :=
  (∀ (off : Nat) (v : Word) (s : State),
    ((busWrite off v s).busy = true ↔ s.busy = true ∨ off = 0x0008) ∧
    ((busWrite off v s).done = true ↔
      s.done = true ∧ ¬(off = 0x0004 ∧ v.getLsbD 1 = true) ∧ ¬(off = 0x0008 ∧ s.busy = false)) ∧
    (busWrite off v s).err = s.err) ∧
  (∀ (off : Nat) (s : State), let t := busRead off s;
    t.busy = s.busy ∧ t.done = s.done ∧ t.err = s.err) ∧
  (∀ s : State, s.busy = false → engineTurn s = .next s) ∧
  (∀ s : State, s.busy = true → ∃ t, engineTurn s = .next t ∧ t.busy = false ∧ t.done = true ∧
    t.err = (completionCode s).code) ∧
  (∀ s : State, (resetInput s).busy = false ∧ (resetInput s).done = false ∧ (resetInput s).err = 0x0#4)

/-- Only a completion step and reset write ERR (rule R28): a step of the machine that changes ERR is a reset, or
an engine step of a RUNNING machine. -/
def Obligations.OnlyCompletionAndResetWriteErr : Prop :=
  ∀ s t : State, step s = .next t → t.err ≠ s.err →
    (∃ ts, s.turns = .reset :: ts) ∨ (s.busy = true ∧ t.busy = false ∧ (s.turns = [] ∨ ∃ ts, s.turns = .engine :: ts))

/-- Rule R47: whatever the host does while BUSY = 1, the inputs of the operation in progress are those at
acceptance, and the operation stays in progress with its command word. -/
def Obligations.HostCannotChangeARunningOperation : Prop :=
  ∀ s t : State, s.busy = true → hostTurn s = .next t →
    SameInputs s t ∧ t.busy = true ∧ t.hidCmd = s.hidCmd ∧ ∀ a, readByte t a = readByte s a

/-- Rule R190: `irq` is DONE and IE in every state; a completion while IE = 1 asserts it whatever its code, and
so does setting IE while DONE = 1. -/
def Obligations.InterruptIsDoneAndEnable : Prop :=
  (∀ s : State, s.irq = true ↔ s.done = true ∧ s.ie = true) ∧
  (∀ s t : State, s.ie = true → completionStep s = .next t → t.irq = true) ∧
  (∀ (v : Word) (s : State), s.busy = false → s.done = true → v.getLsbD 8 = true →
    (busWrite 0x000C v s).irq = true)

/-- What clears the interrupt (rule R191): bit 1 of a STATUS write, the next acceptance, writing IE = 0 and
reset; a STATUS read does not. -/
def Obligations.InterruptClears : Prop :=
  (∀ (v : Word) (s : State), v.getLsbD 1 = true → (busWrite 0x0004 v s).irq = false) ∧
  (∀ (v : Word) (s : State), s.busy = false → (busWrite 0x0008 v s).irq = false) ∧
  (∀ (v : Word) (s : State), s.busy = false → v.getLsbD 8 = false → (busWrite 0x000C v s).irq = false) ∧
  (∀ s : State, (resetInput s).irq = false ∧ (busRead 0x0004 s).irq = s.irq)

/-- The values of rule R48 after reset, and this hardware's `P_DU_MAX`.  That an unwritten byte of DIN and DOUT is
the draw `Config.bufferDraw` at index 0 is the model's form of the unspecified byte (log entry 2). -/
def Obligations.ResetValues : Prop :=
  let s := State.reset
  busReadValue 0x0000 s = 0x58545331#32 ∧ busReadValue 0x0004 s = 0#32 ∧ s.busy = false ∧ s.done = false ∧
  s.cmdLost = false ∧ s.wrIgn = false ∧ s.err = 0x0#4 ∧ busReadValue 0x0008 s = 0#32 ∧
  busReadValue 0x000C s = 0#32 ∧ s.k1len = 0#2 ∧ s.k2len = 0#2 ∧ s.ie = false ∧ s.len = 0#32 ∧
  busReadValue 0x0014 s = 4096#32 ∧
  (∀ j : Fin 8, s.key1[j] = 0#32 ∧ s.key2[j] = 0#32) ∧ (∀ j : Fin 4, s.tweak[j] = 0#32) ∧
  (∀ a, readByte s a = Config.bufferDraw 0 a) ∧ s.phase = .idle ∧ s.hidCmd = 0#32 ∧
  s.scratch.T = 0 ∧ s.scratch.CC = 0 ∧ s.scratch.PP = 0 ∧ s.scratch.BLK = 0 ∧ s.scratch.KS1 = 0 ∧
  s.scratch.KS2 = 0 ∧ s.scratch.I = 0 ∧ s.irq = false

/-- The reset input gives every register and hidden register its reset value from any state, a RUNNING one
included, with DIN and DOUT drawn afresh (rules R210, R211).  The model's own parts of it: the draw is
`Config.bufferDraw` at the next index (log entry 2), reset is one step, and the host's program and the schedule
go on (log entry 9). -/
def Obligations.ResetInputResetsTheEngine : Prop :=
  ∀ (s : State) (ts : List Turn), s.turns = .reset :: ts →
    ∃ t, step s = .next t ∧ t.busy = false ∧ t.done = false ∧ t.cmdLost = false ∧ t.wrIgn = false ∧
      t.err = 0x0#4 ∧ cfgWord t = 0#32 ∧ t.len = 0#32 ∧ t.key1 = State.reset.key1 ∧ t.key2 = State.reset.key2 ∧
      t.tweak = State.reset.tweak ∧ t.hidCmd = 0#32 ∧ t.scratch = Scratch.zero ∧ t.irq = false ∧
      (∀ a, readByte t a = Config.bufferDraw (s.resets + 1) a) ∧ t.program = s.program ∧ t.turns = ts

/-! ### Invariant -/

/-- Every step from a state with the invariant ends in one with it: the memory keeps its canonical form, BUSY
and DONE never hold together, ERR stays one of the five codes and the hidden scratch stays zero; and the
engine's parameter `P_DU_MAX` stays what it was. -/
def Obligations.StepKeepsInvariant : Prop :=
  ∀ s t : State, s.Inv → step s = .next t → t.Inv ∧ t.duMax = s.duMax

/-- The invariant holds right after reset. -/
def Obligations.ResetHasInvariant : Prop := State.reset.Inv

/-- What each host read returns while BUSY = 1, in every state with the invariant (rule R225): STATUS shows BUSY =
1, DONE = 0, the current CMD_LOST and WR_IGN, and in ERR the code that `err` holds, which acceptance left as it
was; ID, CFG, LEN, DUMAX, TWEAK and DIN return their stored values; KEY1, KEY2, CMD and reserved offsets read
0. -/
def Obligations.ReadsWhileBusy : Prop :=
  ∀ s : State, s.Inv → s.busy = true →
    (let w := busReadValue 0x0004 s;
      w.getLsbD 0 = true ∧ w.getLsbD 1 = false ∧ w.getLsbD 2 = s.cmdLost ∧ w.getLsbD 3 = s.wrIgn ∧
      w.extractLsb' 4 4 = s.err) ∧
    busReadValue 0x0000 s = 0x58545331#32 ∧
    (let w := busReadValue 0x000C s;
      w.extractLsb' 0 2 = s.k1len ∧ w.extractLsb' 2 2 = s.k2len ∧ w.getLsbD 8 = s.ie ∧ w &&& 0xFFFFFEF0#32 = 0#32) ∧
    busReadValue 0x0010 s = s.len ∧
    busReadValue 0x0014 s = BitVec.ofNat 32 s.duMax ∧
    (∀ j : Fin 4, busReadValue (0x0080 + 4 * j.val) s = s.tweak[j]) ∧
    (∀ off b, 0x1000 ≤ off → off ≤ 0x1FFC → b < 4 →
      (busReadValue off s).extractLsb' (8 * b) 8 = readByte s (off + b)) ∧
    (∀ off, 0x0040 ≤ off → off ≤ 0x007C → busReadValue off s = 0#32) ∧
    busReadValue 0x0008 s = 0#32 ∧
    (∀ off, ReservedOffset off → busReadValue off s = 0#32)

/-! ### The host agent -/

/-- The host's statements (rule R90): a write stores its value, a read keeps the word read, a poll goes on exactly
when `(v & MASK) = VAL`, and a repeat runs its body round by round.  The model's own parts of it: a read that
differs from its `== VAL` is recorded and the program goes on (log entry 15), and unfolding one round of a repeat
is a turn without an access (log entry 6). -/
def Obligations.HostStatementsRunAsWritten : Prop :=
  ∀ (s : State) (off : Nat) (rest : HostProgram), off < 0x4000 → off % 4 = 0 →
    (∀ v, s.program = .wr off (.imm v) rest → hostTurn s = .next (busWrite off v { s with program := rest })) ∧
    (s.program = .wr off .lastRead rest →
      hostTurn s = .next (busWrite off s.lastRead { s with program := rest })) ∧
    (s.program = .rd off none rest → hostTurn s = .next (busRead off { s with program := rest })) ∧
    (∀ v, s.program = .rd off (some v) rest →
      ∃ t, hostTurn s = .next t ∧ t.lastRead = busReadValue off s ∧ t.program = rest ∧
        (t.rdMismatch = true ↔ s.rdMismatch = true ∨ busReadValue off s ≠ v)) ∧
    (∀ m v, s.program = .poll off m v rest →
      ∃ t, hostTurn s = .next t ∧ t.lastRead = busReadValue off s ∧
        t.program = (if busReadValue off s &&& m = v then rest else s.program)) ∧
    (∀ n body, s.program = .rep (n + 1) body rest →
      hostTurn s = .next { s with program := body.append (.rep n body rest) }) ∧
    (∀ body, s.program = .rep 0 body rest → hostTurn s = .next { s with program := rest })

/-! ### The tweak multiplier -/

/-- The bits of `mulx` (rules R66, R100): each moves up by one, the carry runs from byte to byte, and the top bit
enters at bits 0, 1, 2 and 7. -/
def Obligations.MulxBits : Prop :=
  ∀ (T : Block) (k : Nat), k < 128 →
    (mulx T).getLsbD k =
      ((decide (1 ≤ k) && T.getLsbD (k - 1)) ^^ (T.getLsbD 127 && decide (k = 0 ∨ k = 1 ∨ k = 2 ∨ k = 7)))

/-- Rule R101: the byte-by-byte multiplication is the same function as that of rule R100. -/
def Obligations.MulxByteByByte : Prop :=
  ∀ T : Block, mulxBytes (blockBytes T) = blockBytes (mulx T)

/-- Rule R102: with bit `j` of byte `k` as the coefficient of `x^(8k+j)`, a block is a polynomial over GF(2) of
degree below 128, `mulx` multiplies it by `x` modulo `x^128 + x^7 + x^2 + x + 1`, and 0x87 is the pattern of
`x^7 + x^2 + x + 1`. -/
def Obligations.MulxMultipliesByX : Prop :=
  let poly : List Byte → Polynomial (ZMod 2) := fun S =>
    ∑ k ∈ Finset.range 16, ∑ j ∈ Finset.range 8,
      if (S.getD k 0#8).getLsbD j then (Polynomial.X : Polynomial (ZMod 2)) ^ (8 * k + j) else 0
  (∀ T : Block, (poly (blockBytes T)).degree < 128 ∧
    poly (blockBytes (mulx T)) =
      (Polynomial.X * poly (blockBytes T)) %ₘ
        (Polynomial.X ^ 128 + Polynomial.X ^ 7 + Polynomial.X ^ 2 + Polynomial.X + 1)) ∧
  poly (blockBytes 0x87#128) = Polynomial.X ^ 7 + Polynomial.X ^ 2 + Polynomial.X + 1

/-- Rule R105: `mulx` of zero is zero; it is linear over XOR; it is a bijection with the inverse that shifts
right; and without a top bit it doubles the number. -/
def Obligations.MulxLaws : Prop :=
  mulx 0#128 = 0#128 ∧ (∀ A B : Block, mulx (A ^^^ B) = mulx A ^^^ mulx B) ∧
  (∀ T : Block, mulxInv (mulx T) = T ∧ mulx (mulxInv T) = T) ∧ Function.Bijective mulx ∧
  (∀ T : Block, ((blockBytes T).getD 15 0#8).toNat < 0x80 → (mulx T).toNat = 2 * T.toNat)

/-- Rule R107: no power of `x` from 1 to 299 is 1; for a nonzero first tweak the tweaks 0 to 299 are pairwise
distinct, and a data unit of at most 4096 bytes uses at most 256 of them; for the zero tweak all are zero. -/
def Obligations.TweaksDoNotRepeat : Prop :=
  (∀ j, 1 ≤ j → j < 300 → mulxPow j 1#128 ≠ 1#128) ∧
  (∀ T0 : Block, T0 ≠ 0#128 → ∀ i j, i < j → j < 300 → mulxPow i T0 ≠ mulxPow j T0) ∧
  (∀ (d : Config.DuMax) (n : Nat), n ≤ d → tweakCount n ≤ 256) ∧
  (∀ j, mulxPow j 0#128 = 0#128)
end

