-- ==== Sys2Proof/Laws/Bytes.lean ====
section
/-! SUPPORT. Laws of byte strings and byte lanes: lengths, and that packing and unpacking undo each other. -/

namespace Sys2Proof.Machine

@[simp] theorem leBytes_length (n v : Nat) : (leBytes n v).length = n := by
  induction n generalizing v with
  | zero => rfl
  | succ n ih => simp [leBytes, ih]

@[simp] theorem wordBytes_length (w : Word) : (wordBytes w).length = 4 := leBytes_length _ _

@[simp] theorem blockBytes_length (b : Block) : (blockBytes b).length = 16 := leBytes_length _ _

/-- A byte string is below `256^length` as a number. -/
theorem leNat_lt (bs : List Byte) : leNat bs < 256 ^ bs.length := by
  induction bs with
  | nil => simp [leNat]
  | cons b bs ih =>
    have hb : b.toNat < 256 := b.isLt
    simp only [leNat, List.length_cons, Nat.pow_succ]
    omega

/-- `le` undoes `le⁻¹` up to the width (rule R9). -/
theorem leNat_leBytes (n v : Nat) : leNat (leBytes n v) = v % 256 ^ n := by
  induction n generalizing v with
  | zero => simp [leBytes, leNat, Nat.mod_one]
  | succ n ih =>
    have h8 : (2 : Nat) ^ 8 = 256 := by decide
    rw [leBytes, leNat, ih, BitVec.toNat_ofNat, h8, Nat.pow_succ, Nat.mul_comm (256 ^ n) 256, Nat.mod_mul]

/-- `le⁻¹` undoes `le` (rule R9). -/
theorem leBytes_leNat (bs : List Byte) : leBytes bs.length (leNat bs) = bs := by
  induction bs with
  | nil => rfl
  | cons b bs ih =>
    have hb : b.toNat < 256 := b.isLt
    have hdiv : (b.toNat + 256 * leNat bs) / 256 = leNat bs := by omega
    have hmod : BitVec.ofNat 8 (b.toNat + 256 * leNat bs) = b := by
      apply BitVec.eq_of_toNat_eq
      simp only [BitVec.toNat_ofNat]
      omega
    simp only [leNat, List.length_cons, leBytes, hdiv, hmod, ih]

@[simp] theorem blockOfBytes_blockBytes (b : Block) : blockOfBytes (blockBytes b) = b := by
  apply BitVec.eq_of_toNat_eq
  have hb : b.toNat < 2 ^ 128 := b.isLt
  simp only [blockOfBytes, blockBytes, leNat_leBytes, BitVec.toNat_ofNat]
  have h : (256 : Nat) ^ 16 = 2 ^ 128 := by decide
  rw [h, Nat.mod_mod, Nat.mod_eq_of_lt hb]

@[simp] theorem wordOfBytes_wordBytes (w : Word) : wordOfBytes (wordBytes w) = w := by
  apply BitVec.eq_of_toNat_eq
  have hw : w.toNat < 2 ^ 32 := w.isLt
  simp only [wordOfBytes, wordBytes, leNat_leBytes, BitVec.toNat_ofNat]
  have h : (256 : Nat) ^ 4 = 2 ^ 32 := by decide
  rw [h, Nat.mod_mod, Nat.mod_eq_of_lt hw]

/-- A 16-byte string is the bytes of its block. -/
theorem blockBytes_blockOfBytes {bs : List Byte} (h : bs.length = 16) : blockBytes (blockOfBytes bs) = bs := by
  have hlt := leNat_lt bs
  rw [h, show (256 : Nat) ^ 16 = 2 ^ 128 by decide] at hlt
  simp only [blockBytes, blockOfBytes, BitVec.toNat_ofNat, Nat.mod_eq_of_lt hlt]
  rw [← h, leBytes_leNat]

/-- A 4-byte string is the lanes of its word (rule R64). -/
theorem wordBytes_wordOfBytes {bs : List Byte} (h : bs.length = 4) : wordBytes (wordOfBytes bs) = bs := by
  have hlt := leNat_lt bs
  rw [h, show (256 : Nat) ^ 4 = 2 ^ 32 by decide] at hlt
  simp only [wordBytes, wordOfBytes, BitVec.toNat_ofNat, Nat.mod_eq_of_lt hlt]
  rw [← h, leBytes_leNat]

/-- Two blocks with the same bytes are the same block. -/
theorem blockBytes_injective {a b : Block} (h : blockBytes a = blockBytes b) : a = b := by
  rw [← blockOfBytes_blockBytes a, h, blockOfBytes_blockBytes]

/-- The bytes of a register file of `n` words. -/
@[simp] theorem registerBytes_length {n : Nat} (ws : Vector Word n) : (registerBytes ws).length = 4 * n := by
  have h : ∀ l : List Word, (l.flatMap wordBytes).length = 4 * l.length := by
    intro l
    induction l with
    | nil => rfl
    | cons w l ih => simp [List.flatMap_cons, ih]; omega
  simp [registerBytes, h]

@[simp] theorem sliceBytes_length (S : List Byte) (a b : Nat) : (sliceBytes S a b).length = min b S.length - a := by
  simp [sliceBytes]

end Sys2Proof.Machine
end

