-- ==== Sys2Proof/Laws/Memory.lean ====
section
/-! SUPPORT. Laws of the byte memory: a read after a write, the frame of a write, and that a write keeps
the canonical form. -/

namespace Sys2Proof.Machine

@[simp] theorem Memory.written_nil (a : Nat) : Memory.written [] a = none := rfl

theorem Memory.written_append (m n : Memory) (a : Nat) :
    Memory.written (m ++ n) a = (Memory.written m a).or (Memory.written n a) := by
  induction m with
  | nil => simp
  | cons c m ih =>
    simp only [List.cons_append, Memory.written]
    split <;> simp [ih]

/-- An address that no entry lists has not been written. -/
theorem Memory.written_eq_none {m : Memory} {a : Nat} (h : ∀ c ∈ m, c.1 ≠ a) : Memory.written m a = none := by
  induction m with
  | nil => rfl
  | cons c m ih =>
    simp only [Memory.written, if_neg (h c List.mem_cons_self)]
    exact ih fun d hd => h d (List.mem_cons_of_mem _ hd)

/-- Keeping every entry of an address keeps what it reads as. -/
theorem Memory.written_filter {m : Memory} {a : Nat} {p : Nat → Bool} (h : p a = true) :
    Memory.written (m.filter fun c => p c.1) a = Memory.written m a := by
  induction m with
  | nil => rfl
  | cons c m ih =>
    by_cases hc : p c.1 = true
    · simp only [List.filter_cons, hc, if_true, Memory.written, ih]
    · have hne : c.1 ≠ a := fun e => hc (e ▸ h)
      simp only [List.filter_cons, hc, if_false, Memory.written, hne, ih, Bool.false_eq_true]

theorem Memory.cells_addr {off : Nat} {bs : List Byte} {c : Host.Cell} (h : c ∈ Memory.cells off bs) :
    off ≤ c.1 ∧ c.1 < off + bs.length := by
  induction bs generalizing off with
  | nil => simp [Memory.cells] at h
  | cons b bs ih =>
    simp only [Memory.cells, List.mem_cons] at h
    rcases h with rfl | h
    · simp
    · have := ih h
      simp only [List.length_cons]
      omega

theorem Memory.written_cells (off : Nat) (bs : List Byte) (k : Nat) (hk : k < bs.length) :
    Memory.written (Memory.cells off bs) (off + k) = some bs[k] := by
  induction bs generalizing off k with
  | nil => simp at hk
  | cons b bs ih =>
    cases k with
    | zero => simp [Memory.cells, Memory.written]
    | succ k =>
      have hne : ¬ off = off + (k + 1) := by omega
      simp only [Memory.cells, Memory.written, hne, if_false]
      have := ih (off + 1) k (by simpa using hk)
      rw [show off + 1 + k = off + (k + 1) by omega] at this
      simpa using this

/-- A read of a written byte gives the byte written. -/
theorem Memory.written_writeBytes (m : Memory) (off : Nat) (bs : List Byte) (k : Nat) (hk : k < bs.length) :
    (m.writeBytes off bs).written (off + k) = some bs[k] := by
  have h1 : Memory.written (m.filter fun c => decide (c.1 < off)) (off + k) = none := by
    apply Memory.written_eq_none
    intro c hc
    have := (List.mem_filter.mp hc).2
    simp only [decide_eq_true_eq] at this
    omega
  simp [Memory.writeBytes, Memory.written_append, h1, Memory.written_cells off bs k hk]

/-- A write leaves every byte outside the written range alone. -/
theorem Memory.written_writeBytes_frame (m : Memory) (off : Nat) (bs : List Byte) {a : Nat}
    (h : a < off ∨ off + bs.length ≤ a) : (m.writeBytes off bs).written a = m.written a := by
  have h2 : Memory.written (Memory.cells off bs) a = none := by
    apply Memory.written_eq_none
    intro c hc
    have := Memory.cells_addr hc
    omega
  simp only [Memory.writeBytes, Memory.written_append, h2]
  rcases h with h | h
  · have h1 : Memory.written (m.filter fun c => decide (c.1 < off)) a = m.written a :=
      Memory.written_filter (p := fun x => decide (x < off)) (by simpa using h)
    have h3 : Memory.written (m.filter fun c => decide (off + bs.length ≤ c.1)) a = none := by
      apply Memory.written_eq_none
      intro c hc
      have := (List.mem_filter.mp hc).2
      simp only [decide_eq_true_eq] at this
      omega
    simp [h1, h3]
  · have h1 : Memory.written (m.filter fun c => decide (off + bs.length ≤ c.1)) a = m.written a :=
      Memory.written_filter (p := fun x => decide (off + bs.length ≤ x)) (by simpa using h)
    have h3 : Memory.written (m.filter fun c => decide (c.1 < off)) a = none := by
      apply Memory.written_eq_none
      intro c hc
      have := (List.mem_filter.mp hc).2
      simp only [decide_eq_true_eq] at this
      omega
    simp [h1, h3]

/-- The canonical form as a proposition. -/
theorem Memory.wf_iff (m : Memory) :
    m.wf = true ↔ m.Pairwise (fun c d => c.1 < d.1) ∧ ∀ c ∈ m, DIN ≤ c.1 ∧ c.1 < DOUT + bufferSize := by
  simp [Memory.wf, List.all_eq_true]

theorem Memory.cells_pairwise (off : Nat) (bs : List Byte) :
    (Memory.cells off bs).Pairwise (fun c d => c.1 < d.1) := by
  induction bs generalizing off with
  | nil => exact List.Pairwise.nil
  | cons b bs ih =>
    refine List.Pairwise.cons (fun d hd => ?_) (ih (off + 1))
    have := Memory.cells_addr hd
    show off < d.1
    omega

/-- A write inside the buffers keeps the canonical form. -/
theorem Memory.writeBytes_wf {m : Memory} {off : Nat} {bs : List Byte} (hm : m.wf = true) (hlo : DIN ≤ off)
    (hhi : off + bs.length ≤ DOUT + bufferSize) : (m.writeBytes off bs).wf = true := by
  rw [Memory.wf_iff] at hm ⊢
  obtain ⟨hp, hr⟩ := hm
  constructor
  · rw [Memory.writeBytes, List.pairwise_append, List.pairwise_append]
    refine ⟨⟨hp.filter _, Memory.cells_pairwise off bs, ?_⟩, hp.filter _, ?_⟩
    · intro c hc d hd
      have h1 := (List.mem_filter.mp hc).2
      have h2 := Memory.cells_addr hd
      simp only [decide_eq_true_eq] at h1
      omega
    · intro c hc d hd
      have h2 := (List.mem_filter.mp hd).2
      simp only [decide_eq_true_eq] at h2
      rcases List.mem_append.mp hc with hc | hc
      · have h1 := (List.mem_filter.mp hc).2
        simp only [decide_eq_true_eq] at h1
        omega
      · have h1 := Memory.cells_addr hc
        omega
  · intro c hc
    simp only [Memory.writeBytes, List.mem_append] at hc
    rcases hc with (hc | hc) | hc
    · exact hr c (List.mem_filter.mp hc).1
    · have := Memory.cells_addr hc
      omega
    · exact hr c (List.mem_filter.mp hc).1

theorem reset_memory_wf : State.reset.mem.wf = true := by decide

@[simp] theorem readBytes_length (s : State) (a n : Nat) : (readBytes s a n).length = n := by
  induction n generalizing a with
  | zero => rfl
  | succ n ih => simp [readBytes, ih]

theorem readBytes_getElem (s : State) (a n k : Nat) (hk : k < (readBytes s a n).length) :
    (readBytes s a n)[k] = readByte s (a + k) := by
  induction n generalizing a k with
  | zero => simp [readBytes] at hk
  | succ n ih =>
    cases k with
    | zero => simp [readBytes]
    | succ k =>
      simp only [readBytes, List.getElem_cons_succ]
      rw [ih (a + 1) k]
      congr 1
      omega

/-- Equal bytes in a range read as equal byte strings. -/
theorem readBytes_congr {s t : State} {a n : Nat} (h : ∀ k < n, readByte t (a + k) = readByte s (a + k)) :
    readBytes t a n = readBytes s a n := by
  apply List.ext_getElem (by simp)
  intro k h1 h2
  rw [readBytes_getElem, readBytes_getElem]
  exact h k (by simpa using h1)

/-- A read of one byte after a write to memory, the same resets behind both states. -/
theorem readByte_writeBytes {s t : State} {off : Nat} {bs : List Byte} (hm : t.mem = s.mem.writeBytes off bs)
    (k : Nat) (hk : k < bs.length) : readByte t (off + k) = bs[k] := by
  simp [readByte, hm, Memory.written_writeBytes _ _ _ _ hk]

/-- A read of one byte outside what was written. -/
theorem readByte_writeBytes_frame {s t : State} {off : Nat} {bs : List Byte} (hm : t.mem = s.mem.writeBytes off bs)
    (hr : t.resets = s.resets) {a : Nat} (h : a < off ∨ off + bs.length ≤ a) : readByte t a = readByte s a := by
  simp [readByte, hm, hr, Memory.written_writeBytes_frame _ _ _ h]

/-- What a write stored, read back whole. -/
theorem readBytes_writeBytes {s t : State} {off : Nat} {bs : List Byte} (hm : t.mem = s.mem.writeBytes off bs) :
    readBytes t off bs.length = bs := by
  apply List.ext_getElem (by simp)
  intro k h1 h2
  rw [readBytes_getElem, readByte_writeBytes hm k h2]

end Sys2Proof.Machine
end

