-- ==== Sys2Proof/Laws/State.lean ====
section
/-! SUPPORT. One lemma per field of State per update, each true by rfl, so that no proof unfolds a record
update; and the read of one byte under each update that leaves memory alone. -/

namespace Sys2Proof.Machine

@[simp] theorem setCmdLost_busy (s : State) : (setCmdLost s).busy = s.busy := rfl
@[simp] theorem setCmdLost_done (s : State) : (setCmdLost s).done = s.done := rfl
@[simp] theorem setCmdLost_cmdLost (s : State) : (setCmdLost s).cmdLost = true := rfl
@[simp] theorem setCmdLost_wrIgn (s : State) : (setCmdLost s).wrIgn = s.wrIgn := rfl
@[simp] theorem setCmdLost_err (s : State) : (setCmdLost s).err = s.err := rfl
@[simp] theorem setCmdLost_k1len (s : State) : (setCmdLost s).k1len = s.k1len := rfl
@[simp] theorem setCmdLost_k2len (s : State) : (setCmdLost s).k2len = s.k2len := rfl
@[simp] theorem setCmdLost_ie (s : State) : (setCmdLost s).ie = s.ie := rfl
@[simp] theorem setCmdLost_len (s : State) : (setCmdLost s).len = s.len := rfl
@[simp] theorem setCmdLost_key1 (s : State) : (setCmdLost s).key1 = s.key1 := rfl
@[simp] theorem setCmdLost_key2 (s : State) : (setCmdLost s).key2 = s.key2 := rfl
@[simp] theorem setCmdLost_tweak (s : State) : (setCmdLost s).tweak = s.tweak := rfl
@[simp] theorem setCmdLost_mem (s : State) : (setCmdLost s).mem = s.mem := rfl
@[simp] theorem setCmdLost_hidCmd (s : State) : (setCmdLost s).hidCmd = s.hidCmd := rfl
@[simp] theorem setCmdLost_scratch (s : State) : (setCmdLost s).scratch = s.scratch := rfl
@[simp] theorem setCmdLost_program (s : State) : (setCmdLost s).program = s.program := rfl
@[simp] theorem setCmdLost_lastRead (s : State) : (setCmdLost s).lastRead = s.lastRead := rfl
@[simp] theorem setCmdLost_rdMismatch (s : State) : (setCmdLost s).rdMismatch = s.rdMismatch := rfl
@[simp] theorem setCmdLost_turns (s : State) : (setCmdLost s).turns = s.turns := rfl
@[simp] theorem setCmdLost_resets (s : State) : (setCmdLost s).resets = s.resets := rfl
@[simp] theorem setCmdLost_busyDoutReads (s : State) : (setCmdLost s).busyDoutReads = s.busyDoutReads := rfl
@[simp] theorem setCmdLost_duMax (s : State) : (setCmdLost s).duMax = s.duMax := rfl
@[simp] theorem readByte_setCmdLost (s : State) (a : Nat) : readByte (setCmdLost s) a = readByte s a := rfl

@[simp] theorem setWrIgn_busy (s : State) : (setWrIgn s).busy = s.busy := rfl
@[simp] theorem setWrIgn_done (s : State) : (setWrIgn s).done = s.done := rfl
@[simp] theorem setWrIgn_cmdLost (s : State) : (setWrIgn s).cmdLost = s.cmdLost := rfl
@[simp] theorem setWrIgn_wrIgn (s : State) : (setWrIgn s).wrIgn = true := rfl
@[simp] theorem setWrIgn_err (s : State) : (setWrIgn s).err = s.err := rfl
@[simp] theorem setWrIgn_k1len (s : State) : (setWrIgn s).k1len = s.k1len := rfl
@[simp] theorem setWrIgn_k2len (s : State) : (setWrIgn s).k2len = s.k2len := rfl
@[simp] theorem setWrIgn_ie (s : State) : (setWrIgn s).ie = s.ie := rfl
@[simp] theorem setWrIgn_len (s : State) : (setWrIgn s).len = s.len := rfl
@[simp] theorem setWrIgn_key1 (s : State) : (setWrIgn s).key1 = s.key1 := rfl
@[simp] theorem setWrIgn_key2 (s : State) : (setWrIgn s).key2 = s.key2 := rfl
@[simp] theorem setWrIgn_tweak (s : State) : (setWrIgn s).tweak = s.tweak := rfl
@[simp] theorem setWrIgn_mem (s : State) : (setWrIgn s).mem = s.mem := rfl
@[simp] theorem setWrIgn_hidCmd (s : State) : (setWrIgn s).hidCmd = s.hidCmd := rfl
@[simp] theorem setWrIgn_scratch (s : State) : (setWrIgn s).scratch = s.scratch := rfl
@[simp] theorem setWrIgn_program (s : State) : (setWrIgn s).program = s.program := rfl
@[simp] theorem setWrIgn_lastRead (s : State) : (setWrIgn s).lastRead = s.lastRead := rfl
@[simp] theorem setWrIgn_rdMismatch (s : State) : (setWrIgn s).rdMismatch = s.rdMismatch := rfl
@[simp] theorem setWrIgn_turns (s : State) : (setWrIgn s).turns = s.turns := rfl
@[simp] theorem setWrIgn_resets (s : State) : (setWrIgn s).resets = s.resets := rfl
@[simp] theorem setWrIgn_busyDoutReads (s : State) : (setWrIgn s).busyDoutReads = s.busyDoutReads := rfl
@[simp] theorem setWrIgn_duMax (s : State) : (setWrIgn s).duMax = s.duMax := rfl
@[simp] theorem readByte_setWrIgn (s : State) (a : Nat) : readByte (setWrIgn s) a = readByte s a := rfl

@[simp] theorem writeStatus_busy (v : Word) (s : State) : (writeStatus v s).busy = s.busy := rfl
@[simp] theorem writeStatus_done (v : Word) (s : State) : (writeStatus v s).done = (s.done && !v.getLsbD 1) := rfl
@[simp] theorem writeStatus_cmdLost (v : Word) (s : State) : (writeStatus v s).cmdLost = (s.cmdLost && !v.getLsbD 2) := rfl
@[simp] theorem writeStatus_wrIgn (v : Word) (s : State) : (writeStatus v s).wrIgn = (s.wrIgn && !v.getLsbD 3) := rfl
@[simp] theorem writeStatus_err (v : Word) (s : State) : (writeStatus v s).err = s.err := rfl
@[simp] theorem writeStatus_k1len (v : Word) (s : State) : (writeStatus v s).k1len = s.k1len := rfl
@[simp] theorem writeStatus_k2len (v : Word) (s : State) : (writeStatus v s).k2len = s.k2len := rfl
@[simp] theorem writeStatus_ie (v : Word) (s : State) : (writeStatus v s).ie = s.ie := rfl
@[simp] theorem writeStatus_len (v : Word) (s : State) : (writeStatus v s).len = s.len := rfl
@[simp] theorem writeStatus_key1 (v : Word) (s : State) : (writeStatus v s).key1 = s.key1 := rfl
@[simp] theorem writeStatus_key2 (v : Word) (s : State) : (writeStatus v s).key2 = s.key2 := rfl
@[simp] theorem writeStatus_tweak (v : Word) (s : State) : (writeStatus v s).tweak = s.tweak := rfl
@[simp] theorem writeStatus_mem (v : Word) (s : State) : (writeStatus v s).mem = s.mem := rfl
@[simp] theorem writeStatus_hidCmd (v : Word) (s : State) : (writeStatus v s).hidCmd = s.hidCmd := rfl
@[simp] theorem writeStatus_scratch (v : Word) (s : State) : (writeStatus v s).scratch = s.scratch := rfl
@[simp] theorem writeStatus_program (v : Word) (s : State) : (writeStatus v s).program = s.program := rfl
@[simp] theorem writeStatus_lastRead (v : Word) (s : State) : (writeStatus v s).lastRead = s.lastRead := rfl
@[simp] theorem writeStatus_rdMismatch (v : Word) (s : State) : (writeStatus v s).rdMismatch = s.rdMismatch := rfl
@[simp] theorem writeStatus_turns (v : Word) (s : State) : (writeStatus v s).turns = s.turns := rfl
@[simp] theorem writeStatus_resets (v : Word) (s : State) : (writeStatus v s).resets = s.resets := rfl
@[simp] theorem writeStatus_busyDoutReads (v : Word) (s : State) : (writeStatus v s).busyDoutReads = s.busyDoutReads := rfl
@[simp] theorem writeStatus_duMax (v : Word) (s : State) : (writeStatus v s).duMax = s.duMax := rfl
@[simp] theorem readByte_writeStatus (v : Word) (s : State) (a : Nat) : readByte (writeStatus v s) a = readByte s a := rfl

@[simp] theorem writeCfg_busy (v : Word) (s : State) : (writeCfg v s).busy = s.busy := rfl
@[simp] theorem writeCfg_done (v : Word) (s : State) : (writeCfg v s).done = s.done := rfl
@[simp] theorem writeCfg_cmdLost (v : Word) (s : State) : (writeCfg v s).cmdLost = s.cmdLost := rfl
@[simp] theorem writeCfg_wrIgn (v : Word) (s : State) : (writeCfg v s).wrIgn = s.wrIgn := rfl
@[simp] theorem writeCfg_err (v : Word) (s : State) : (writeCfg v s).err = s.err := rfl
@[simp] theorem writeCfg_k1len (v : Word) (s : State) : (writeCfg v s).k1len = v.extractLsb' 0 2 := rfl
@[simp] theorem writeCfg_k2len (v : Word) (s : State) : (writeCfg v s).k2len = v.extractLsb' 2 2 := rfl
@[simp] theorem writeCfg_ie (v : Word) (s : State) : (writeCfg v s).ie = v.getLsbD 8 := rfl
@[simp] theorem writeCfg_len (v : Word) (s : State) : (writeCfg v s).len = s.len := rfl
@[simp] theorem writeCfg_key1 (v : Word) (s : State) : (writeCfg v s).key1 = s.key1 := rfl
@[simp] theorem writeCfg_key2 (v : Word) (s : State) : (writeCfg v s).key2 = s.key2 := rfl
@[simp] theorem writeCfg_tweak (v : Word) (s : State) : (writeCfg v s).tweak = s.tweak := rfl
@[simp] theorem writeCfg_mem (v : Word) (s : State) : (writeCfg v s).mem = s.mem := rfl
@[simp] theorem writeCfg_hidCmd (v : Word) (s : State) : (writeCfg v s).hidCmd = s.hidCmd := rfl
@[simp] theorem writeCfg_scratch (v : Word) (s : State) : (writeCfg v s).scratch = s.scratch := rfl
@[simp] theorem writeCfg_program (v : Word) (s : State) : (writeCfg v s).program = s.program := rfl
@[simp] theorem writeCfg_lastRead (v : Word) (s : State) : (writeCfg v s).lastRead = s.lastRead := rfl
@[simp] theorem writeCfg_rdMismatch (v : Word) (s : State) : (writeCfg v s).rdMismatch = s.rdMismatch := rfl
@[simp] theorem writeCfg_turns (v : Word) (s : State) : (writeCfg v s).turns = s.turns := rfl
@[simp] theorem writeCfg_resets (v : Word) (s : State) : (writeCfg v s).resets = s.resets := rfl
@[simp] theorem writeCfg_busyDoutReads (v : Word) (s : State) : (writeCfg v s).busyDoutReads = s.busyDoutReads := rfl
@[simp] theorem writeCfg_duMax (v : Word) (s : State) : (writeCfg v s).duMax = s.duMax := rfl
@[simp] theorem readByte_writeCfg (v : Word) (s : State) (a : Nat) : readByte (writeCfg v s) a = readByte s a := rfl

@[simp] theorem acceptCommand_busy (v : Word) (s : State) : (acceptCommand v s).busy = true := rfl
@[simp] theorem acceptCommand_done (v : Word) (s : State) : (acceptCommand v s).done = false := rfl
@[simp] theorem acceptCommand_cmdLost (v : Word) (s : State) : (acceptCommand v s).cmdLost = s.cmdLost := rfl
@[simp] theorem acceptCommand_wrIgn (v : Word) (s : State) : (acceptCommand v s).wrIgn = s.wrIgn := rfl
@[simp] theorem acceptCommand_err (v : Word) (s : State) : (acceptCommand v s).err = s.err := rfl
@[simp] theorem acceptCommand_k1len (v : Word) (s : State) : (acceptCommand v s).k1len = s.k1len := rfl
@[simp] theorem acceptCommand_k2len (v : Word) (s : State) : (acceptCommand v s).k2len = s.k2len := rfl
@[simp] theorem acceptCommand_ie (v : Word) (s : State) : (acceptCommand v s).ie = s.ie := rfl
@[simp] theorem acceptCommand_len (v : Word) (s : State) : (acceptCommand v s).len = s.len := rfl
@[simp] theorem acceptCommand_key1 (v : Word) (s : State) : (acceptCommand v s).key1 = s.key1 := rfl
@[simp] theorem acceptCommand_key2 (v : Word) (s : State) : (acceptCommand v s).key2 = s.key2 := rfl
@[simp] theorem acceptCommand_tweak (v : Word) (s : State) : (acceptCommand v s).tweak = s.tweak := rfl
@[simp] theorem acceptCommand_mem (v : Word) (s : State) : (acceptCommand v s).mem = s.mem := rfl
@[simp] theorem acceptCommand_hidCmd (v : Word) (s : State) : (acceptCommand v s).hidCmd = v := rfl
@[simp] theorem acceptCommand_scratch (v : Word) (s : State) : (acceptCommand v s).scratch = s.scratch := rfl
@[simp] theorem acceptCommand_program (v : Word) (s : State) : (acceptCommand v s).program = s.program := rfl
@[simp] theorem acceptCommand_lastRead (v : Word) (s : State) : (acceptCommand v s).lastRead = s.lastRead := rfl
@[simp] theorem acceptCommand_rdMismatch (v : Word) (s : State) : (acceptCommand v s).rdMismatch = s.rdMismatch := rfl
@[simp] theorem acceptCommand_turns (v : Word) (s : State) : (acceptCommand v s).turns = s.turns := rfl
@[simp] theorem acceptCommand_resets (v : Word) (s : State) : (acceptCommand v s).resets = s.resets := rfl
@[simp] theorem acceptCommand_busyDoutReads (v : Word) (s : State) : (acceptCommand v s).busyDoutReads = s.busyDoutReads := rfl
@[simp] theorem acceptCommand_duMax (v : Word) (s : State) : (acceptCommand v s).duMax = s.duMax := rfl
@[simp] theorem readByte_acceptCommand (v : Word) (s : State) (a : Nat) : readByte (acceptCommand v s) a = readByte s a := rfl

@[simp] theorem loadScratch_busy (c : Scratch) (s : State) : (loadScratch c s).busy = s.busy := rfl
@[simp] theorem loadScratch_done (c : Scratch) (s : State) : (loadScratch c s).done = s.done := rfl
@[simp] theorem loadScratch_cmdLost (c : Scratch) (s : State) : (loadScratch c s).cmdLost = s.cmdLost := rfl
@[simp] theorem loadScratch_wrIgn (c : Scratch) (s : State) : (loadScratch c s).wrIgn = s.wrIgn := rfl
@[simp] theorem loadScratch_err (c : Scratch) (s : State) : (loadScratch c s).err = s.err := rfl
@[simp] theorem loadScratch_k1len (c : Scratch) (s : State) : (loadScratch c s).k1len = s.k1len := rfl
@[simp] theorem loadScratch_k2len (c : Scratch) (s : State) : (loadScratch c s).k2len = s.k2len := rfl
@[simp] theorem loadScratch_ie (c : Scratch) (s : State) : (loadScratch c s).ie = s.ie := rfl
@[simp] theorem loadScratch_len (c : Scratch) (s : State) : (loadScratch c s).len = s.len := rfl
@[simp] theorem loadScratch_key1 (c : Scratch) (s : State) : (loadScratch c s).key1 = s.key1 := rfl
@[simp] theorem loadScratch_key2 (c : Scratch) (s : State) : (loadScratch c s).key2 = s.key2 := rfl
@[simp] theorem loadScratch_tweak (c : Scratch) (s : State) : (loadScratch c s).tweak = s.tweak := rfl
@[simp] theorem loadScratch_mem (c : Scratch) (s : State) : (loadScratch c s).mem = s.mem := rfl
@[simp] theorem loadScratch_hidCmd (c : Scratch) (s : State) : (loadScratch c s).hidCmd = s.hidCmd := rfl
@[simp] theorem loadScratch_scratch (c : Scratch) (s : State) : (loadScratch c s).scratch = c := rfl
@[simp] theorem loadScratch_program (c : Scratch) (s : State) : (loadScratch c s).program = s.program := rfl
@[simp] theorem loadScratch_lastRead (c : Scratch) (s : State) : (loadScratch c s).lastRead = s.lastRead := rfl
@[simp] theorem loadScratch_rdMismatch (c : Scratch) (s : State) : (loadScratch c s).rdMismatch = s.rdMismatch := rfl
@[simp] theorem loadScratch_turns (c : Scratch) (s : State) : (loadScratch c s).turns = s.turns := rfl
@[simp] theorem loadScratch_resets (c : Scratch) (s : State) : (loadScratch c s).resets = s.resets := rfl
@[simp] theorem loadScratch_busyDoutReads (c : Scratch) (s : State) : (loadScratch c s).busyDoutReads = s.busyDoutReads := rfl
@[simp] theorem loadScratch_duMax (c : Scratch) (s : State) : (loadScratch c s).duMax = s.duMax := rfl
@[simp] theorem readByte_loadScratch (c : Scratch) (s : State) (a : Nat) : readByte (loadScratch c s) a = readByte s a := rfl

@[simp] theorem finishCommon_busy (e : ErrCode) (s : State) : (finishCommon e s).busy = false := rfl
@[simp] theorem finishCommon_done (e : ErrCode) (s : State) : (finishCommon e s).done = true := rfl
@[simp] theorem finishCommon_cmdLost (e : ErrCode) (s : State) : (finishCommon e s).cmdLost = s.cmdLost := rfl
@[simp] theorem finishCommon_wrIgn (e : ErrCode) (s : State) : (finishCommon e s).wrIgn = s.wrIgn := rfl
@[simp] theorem finishCommon_err (e : ErrCode) (s : State) : (finishCommon e s).err = e.code := rfl
@[simp] theorem finishCommon_k1len (e : ErrCode) (s : State) : (finishCommon e s).k1len = s.k1len := rfl
@[simp] theorem finishCommon_k2len (e : ErrCode) (s : State) : (finishCommon e s).k2len = s.k2len := rfl
@[simp] theorem finishCommon_ie (e : ErrCode) (s : State) : (finishCommon e s).ie = s.ie := rfl
@[simp] theorem finishCommon_len (e : ErrCode) (s : State) : (finishCommon e s).len = s.len := rfl
@[simp] theorem finishCommon_key1 (e : ErrCode) (s : State) : (finishCommon e s).key1 = s.key1 := rfl
@[simp] theorem finishCommon_key2 (e : ErrCode) (s : State) : (finishCommon e s).key2 = s.key2 := rfl
@[simp] theorem finishCommon_tweak (e : ErrCode) (s : State) : (finishCommon e s).tweak = s.tweak := rfl
@[simp] theorem finishCommon_mem (e : ErrCode) (s : State) : (finishCommon e s).mem = s.mem := rfl
@[simp] theorem finishCommon_hidCmd (e : ErrCode) (s : State) : (finishCommon e s).hidCmd = s.hidCmd := rfl
@[simp] theorem finishCommon_scratch (e : ErrCode) (s : State) : (finishCommon e s).scratch = Scratch.zero := rfl
@[simp] theorem finishCommon_program (e : ErrCode) (s : State) : (finishCommon e s).program = s.program := rfl
@[simp] theorem finishCommon_lastRead (e : ErrCode) (s : State) : (finishCommon e s).lastRead = s.lastRead := rfl
@[simp] theorem finishCommon_rdMismatch (e : ErrCode) (s : State) : (finishCommon e s).rdMismatch = s.rdMismatch := rfl
@[simp] theorem finishCommon_turns (e : ErrCode) (s : State) : (finishCommon e s).turns = s.turns := rfl
@[simp] theorem finishCommon_resets (e : ErrCode) (s : State) : (finishCommon e s).resets = s.resets := rfl
@[simp] theorem finishCommon_busyDoutReads (e : ErrCode) (s : State) : (finishCommon e s).busyDoutReads = s.busyDoutReads := rfl
@[simp] theorem finishCommon_duMax (e : ErrCode) (s : State) : (finishCommon e s).duMax = s.duMax := rfl
@[simp] theorem readByte_finishCommon (e : ErrCode) (s : State) (a : Nat) : readByte (finishCommon e s) a = readByte s a := rfl

@[simp] theorem finishErr_busy (e : ErrCode) (s : State) : (finishErr e s).busy = false := rfl
@[simp] theorem finishErr_done (e : ErrCode) (s : State) : (finishErr e s).done = true := rfl
@[simp] theorem finishErr_cmdLost (e : ErrCode) (s : State) : (finishErr e s).cmdLost = s.cmdLost := rfl
@[simp] theorem finishErr_wrIgn (e : ErrCode) (s : State) : (finishErr e s).wrIgn = s.wrIgn := rfl
@[simp] theorem finishErr_err (e : ErrCode) (s : State) : (finishErr e s).err = e.code := rfl
@[simp] theorem finishErr_k1len (e : ErrCode) (s : State) : (finishErr e s).k1len = s.k1len := rfl
@[simp] theorem finishErr_k2len (e : ErrCode) (s : State) : (finishErr e s).k2len = s.k2len := rfl
@[simp] theorem finishErr_ie (e : ErrCode) (s : State) : (finishErr e s).ie = s.ie := rfl
@[simp] theorem finishErr_len (e : ErrCode) (s : State) : (finishErr e s).len = s.len := rfl
@[simp] theorem finishErr_key1 (e : ErrCode) (s : State) : (finishErr e s).key1 = s.key1 := rfl
@[simp] theorem finishErr_key2 (e : ErrCode) (s : State) : (finishErr e s).key2 = s.key2 := rfl
@[simp] theorem finishErr_tweak (e : ErrCode) (s : State) : (finishErr e s).tweak = s.tweak := rfl
@[simp] theorem finishErr_mem (e : ErrCode) (s : State) : (finishErr e s).mem = s.mem := rfl
@[simp] theorem finishErr_hidCmd (e : ErrCode) (s : State) : (finishErr e s).hidCmd = s.hidCmd := rfl
@[simp] theorem finishErr_scratch (e : ErrCode) (s : State) : (finishErr e s).scratch = Scratch.zero := rfl
@[simp] theorem finishErr_program (e : ErrCode) (s : State) : (finishErr e s).program = s.program := rfl
@[simp] theorem finishErr_lastRead (e : ErrCode) (s : State) : (finishErr e s).lastRead = s.lastRead := rfl
@[simp] theorem finishErr_rdMismatch (e : ErrCode) (s : State) : (finishErr e s).rdMismatch = s.rdMismatch := rfl
@[simp] theorem finishErr_turns (e : ErrCode) (s : State) : (finishErr e s).turns = s.turns := rfl
@[simp] theorem finishErr_resets (e : ErrCode) (s : State) : (finishErr e s).resets = s.resets := rfl
@[simp] theorem finishErr_busyDoutReads (e : ErrCode) (s : State) : (finishErr e s).busyDoutReads = s.busyDoutReads := rfl
@[simp] theorem finishErr_duMax (e : ErrCode) (s : State) : (finishErr e s).duMax = s.duMax := rfl
@[simp] theorem readByte_finishErr (e : ErrCode) (s : State) (a : Nat) : readByte (finishErr e s) a = readByte s a := rfl

@[simp] theorem finishOk_busy (S : List Byte) (o : Nat) (s : State) : (finishOk S o s).busy = false := rfl
@[simp] theorem finishOk_done (S : List Byte) (o : Nat) (s : State) : (finishOk S o s).done = true := rfl
@[simp] theorem finishOk_cmdLost (S : List Byte) (o : Nat) (s : State) : (finishOk S o s).cmdLost = s.cmdLost := rfl
@[simp] theorem finishOk_wrIgn (S : List Byte) (o : Nat) (s : State) : (finishOk S o s).wrIgn = s.wrIgn := rfl
@[simp] theorem finishOk_err (S : List Byte) (o : Nat) (s : State) : (finishOk S o s).err = ErrCode.ok.code := rfl
@[simp] theorem finishOk_k1len (S : List Byte) (o : Nat) (s : State) : (finishOk S o s).k1len = s.k1len := rfl
@[simp] theorem finishOk_k2len (S : List Byte) (o : Nat) (s : State) : (finishOk S o s).k2len = s.k2len := rfl
@[simp] theorem finishOk_ie (S : List Byte) (o : Nat) (s : State) : (finishOk S o s).ie = s.ie := rfl
@[simp] theorem finishOk_len (S : List Byte) (o : Nat) (s : State) : (finishOk S o s).len = s.len := rfl
@[simp] theorem finishOk_key1 (S : List Byte) (o : Nat) (s : State) : (finishOk S o s).key1 = s.key1 := rfl
@[simp] theorem finishOk_key2 (S : List Byte) (o : Nat) (s : State) : (finishOk S o s).key2 = s.key2 := rfl
@[simp] theorem finishOk_tweak (S : List Byte) (o : Nat) (s : State) : (finishOk S o s).tweak = s.tweak := rfl
@[simp] theorem finishOk_mem (S : List Byte) (o : Nat) (s : State) : (finishOk S o s).mem = s.mem.writeBytes (DOUT + o) S := rfl
@[simp] theorem finishOk_hidCmd (S : List Byte) (o : Nat) (s : State) : (finishOk S o s).hidCmd = s.hidCmd := rfl
@[simp] theorem finishOk_scratch (S : List Byte) (o : Nat) (s : State) : (finishOk S o s).scratch = Scratch.zero := rfl
@[simp] theorem finishOk_program (S : List Byte) (o : Nat) (s : State) : (finishOk S o s).program = s.program := rfl
@[simp] theorem finishOk_lastRead (S : List Byte) (o : Nat) (s : State) : (finishOk S o s).lastRead = s.lastRead := rfl
@[simp] theorem finishOk_rdMismatch (S : List Byte) (o : Nat) (s : State) : (finishOk S o s).rdMismatch = s.rdMismatch := rfl
@[simp] theorem finishOk_turns (S : List Byte) (o : Nat) (s : State) : (finishOk S o s).turns = s.turns := rfl
@[simp] theorem finishOk_resets (S : List Byte) (o : Nat) (s : State) : (finishOk S o s).resets = s.resets := rfl
@[simp] theorem finishOk_busyDoutReads (S : List Byte) (o : Nat) (s : State) : (finishOk S o s).busyDoutReads = s.busyDoutReads := rfl
@[simp] theorem finishOk_duMax (S : List Byte) (o : Nat) (s : State) : (finishOk S o s).duMax = s.duMax := rfl

@[simp] theorem resetInput_busy (s : State) : (resetInput s).busy = false := rfl
@[simp] theorem resetInput_done (s : State) : (resetInput s).done = false := rfl
@[simp] theorem resetInput_cmdLost (s : State) : (resetInput s).cmdLost = false := rfl
@[simp] theorem resetInput_wrIgn (s : State) : (resetInput s).wrIgn = false := rfl
@[simp] theorem resetInput_err (s : State) : (resetInput s).err = 0 := rfl
@[simp] theorem resetInput_k1len (s : State) : (resetInput s).k1len = 0 := rfl
@[simp] theorem resetInput_k2len (s : State) : (resetInput s).k2len = 0 := rfl
@[simp] theorem resetInput_ie (s : State) : (resetInput s).ie = false := rfl
@[simp] theorem resetInput_len (s : State) : (resetInput s).len = 0 := rfl
@[simp] theorem resetInput_key1 (s : State) : (resetInput s).key1 = Vector.replicate 8 0 := rfl
@[simp] theorem resetInput_key2 (s : State) : (resetInput s).key2 = Vector.replicate 8 0 := rfl
@[simp] theorem resetInput_tweak (s : State) : (resetInput s).tweak = Vector.replicate 4 0 := rfl
@[simp] theorem resetInput_mem (s : State) : (resetInput s).mem = [] := rfl
@[simp] theorem resetInput_hidCmd (s : State) : (resetInput s).hidCmd = 0 := rfl
@[simp] theorem resetInput_scratch (s : State) : (resetInput s).scratch = Scratch.zero := rfl
@[simp] theorem resetInput_program (s : State) : (resetInput s).program = s.program := rfl
@[simp] theorem resetInput_lastRead (s : State) : (resetInput s).lastRead = s.lastRead := rfl
@[simp] theorem resetInput_rdMismatch (s : State) : (resetInput s).rdMismatch = s.rdMismatch := rfl
@[simp] theorem resetInput_turns (s : State) : (resetInput s).turns = s.turns := rfl
@[simp] theorem resetInput_resets (s : State) : (resetInput s).resets = s.resets + 1 := rfl
@[simp] theorem resetInput_busyDoutReads (s : State) : (resetInput s).busyDoutReads = s.busyDoutReads := rfl
@[simp] theorem resetInput_duMax (s : State) : (resetInput s).duMax = s.duMax := rfl

/-! Memory is read the same whatever else of the state changes. -/

theorem readByte_congr {s t : State} (hm : t.mem = s.mem) (hr : t.resets = s.resets) (a : Nat) :
    readByte t a = readByte s a := by
  simp [readByte, hm, hr]

/-- Completing drops whatever the scratch held (rule R45). -/
@[simp] theorem finishCommon_loadScratch (e : ErrCode) (c : Scratch) (s : State) :
    finishCommon e (loadScratch c s) = finishCommon e s := rfl

@[simp] theorem finishErr_loadScratch (e : ErrCode) (c : Scratch) (s : State) :
    finishErr e (loadScratch c s) = finishErr e s := rfl

@[simp] theorem finishOk_loadScratch (S : List Byte) (o : Nat) (c : Scratch) (s : State) :
    finishOk S o (loadScratch c s) = finishOk S o s := rfl

/-- The bytes a successful completion wrote. -/
theorem readByte_finishOk (S : List Byte) (o : Nat) (s : State) (k : Nat) (hk : k < S.length) :
    readByte (finishOk S o s) (DOUT + o + k) = S[k] :=
  readByte_writeBytes (s := s) rfl k hk

/-- Every byte a successful completion did not write. -/
theorem readByte_finishOk_frame (S : List Byte) (o : Nat) (s : State) {a : Nat}
    (h : a < DOUT + o ∨ DOUT + o + S.length ≤ a) : readByte (finishOk S o s) a = readByte s a :=
  readByte_writeBytes_frame (s := s) (t := finishOk S o s) (off := DOUT + o) (bs := S) rfl rfl h

/-- The output of a successful completion, read back whole. -/
theorem doutBytes_finishOk (S : List Byte) (s : State) : doutBytes (finishOk S 0 s) S.length = S :=
  readBytes_writeBytes (s := s) (off := DOUT) rfl

end Sys2Proof.Machine
end

