-- ==== Sys2Proof/Laws/Ops.lean ====
section
/-! SUPPORT. For each shared operation one lemma that says once everything it can do; the proofs cite these
and do not unfold the operations. -/

namespace Sys2Proof.Machine

/-- A CMD write: dropped with CMD_LOST while busy, accepted else (rules R30, R223). -/
theorem writeCmd_cases (v : Word) (s : State) :
    (s.busy = true ∧ writeCmd v s = setCmdLost s) ∨ (s.busy = false ∧ writeCmd v s = acceptCommand v s) := by
  cases h : s.busy <;> simp [writeCmd, h]

/-- An input write: ignored with WR_IGN while busy, performed else (rule R222). -/
theorem writeInput_cases (f : State → State) (s : State) :
    (s.busy = true ∧ writeInput f s = setWrIgn s) ∨ (s.busy = false ∧ writeInput f s = f s) := by
  cases h : s.busy <;> simp [writeInput, h]

/-- Which offsets each name of the register map covers (rules R21, R41). -/
def BusReg.covers : BusReg → Nat → Prop
  | .id, off => off = 0x0000
  | .status, off => off = 0x0004
  | .cmd, off => off = 0x0008
  | .cfg, off => off = 0x000C
  | .len, off => off = 0x0010
  | .dumax, off => off = 0x0014
  | .key1 j, off => (off - 0x0040) / 4 = j.val ∧ 0x0040 ≤ off
  | .key2 j, off => (off - 0x0060) / 4 = j.val ∧ 0x0060 ≤ off
  | .tweak j, off => (off - 0x0080) / 4 = j.val ∧ 0x0080 ≤ off
  | .din, off => off / 0x1000 = 1
  | .dout, off => off / 0x1000 = 2
  | .reserved, off => (off < 0x0040 ∧ off ∉ [0x0000, 0x0004, 0x0008, 0x000C, 0x0010, 0x0014]) ∨
      (0x0090 ≤ off ∧ off / 0x1000 = 0) ∨ 3 ≤ off / 0x1000

/-- Every offset is covered by the name that the map gives it. -/
theorem busReg_covers (off : Nat) : (busReg off).covers off := by
  unfold busReg
  split
  · unfold fileReg
    split_ifs
    · unfold controlReg
      split <;> simp_all [BusReg.covers]
    all_goals simp only [BusReg.covers, Fin.ofNat]; omega
  · assumption
  · assumption
  · rename_i h0 h1 h2
    have h0' : off / 0x1000 ≠ 0 := h0
    have h1' : off / 0x1000 ≠ 1 := h1
    have h2' : off / 0x1000 ≠ 2 := h2
    exact Or.inr (Or.inr (by omega))

/-- No offset is covered by two names. -/
theorem BusReg.covers_unique {q r : BusReg} {off : Nat} (hq : q.covers off) (hr : r.covers off) : q = r := by
  cases q <;> cases r <;> simp only [BusReg.covers, List.mem_cons, List.not_mem_nil] at hq hr <;>
    first | rfl | omega | (congr 1; exact Fin.ext (by omega))

/-- The register map (rule R21), said both ways: what `busReg` gives is exactly what covers the offset. -/
theorem busReg_eq_iff (off : Nat) (r : BusReg) : busReg off = r ↔ r.covers off :=
  ⟨fun h => h ▸ busReg_covers off, BusReg.covers_unique (busReg_covers off)⟩

/-- The offsets of DIN in the register map (rule R21). -/
theorem busReg_din {off : Nat} (h : busReg off = .din) : DIN ≤ off ∧ off < DIN + bufferSize := by
  have hc : off / 0x1000 = 1 := (busReg_eq_iff off .din).mp h
  simp only [DIN, bufferSize]
  omega

/-- The offsets of DOUT in the register map (rule R21). -/
theorem busReg_dout {off : Nat} (h : busReg off = .dout) : DOUT ≤ off ∧ off < DOUT + bufferSize := by
  have hc : off / 0x1000 = 2 := (busReg_eq_iff off .dout).mp h
  simp only [DOUT, bufferSize]
  omega

/-- A host read changes the host's last word and the count of DOUT reads while busy, and nothing else (rule
R69). -/
theorem busRead_eq (off : Nat) (s : State) :
    ∃ n, busRead off s = { s with lastRead := busReadValue off s, busyDoutReads := n } := by
  unfold busRead
  cases busReg off <;> exact ⟨_, rfl⟩

/-- What a host write can do: nothing, clear flags, set a flag, accept a command or store one input while
idle. -/
theorem busWrite_cases (off : Nat) (v : Word) (s : State) :
    busWrite off v s = s ∨
    (busReg off = .status ∧ busWrite off v s = writeStatus v s) ∨
    (busReg off = .cmd ∧ s.busy = true ∧ busWrite off v s = setCmdLost s) ∨
    (busReg off = .cmd ∧ s.busy = false ∧ busWrite off v s = acceptCommand v s) ∨
    (s.busy = true ∧ busWrite off v s = setWrIgn s) ∨
    (s.busy = false ∧ ((busReg off = .cfg ∧ busWrite off v s = writeCfg v s) ∨
      (busReg off = .len ∧ busWrite off v s = { s with len := v }) ∨
      (∃ j, busReg off = .key1 j ∧ busWrite off v s = { s with key1 := s.key1.set j v }) ∨
      (∃ j, busReg off = .key2 j ∧ busWrite off v s = { s with key2 := s.key2.set j v }) ∨
      (∃ j, busReg off = .tweak j ∧ busWrite off v s = { s with tweak := s.tweak.set j v }) ∨
      (busReg off = .din ∧ busWrite off v s = { s with mem := s.mem.writeBytes off (wordBytes v) }))) := by
  cases hr : busReg off <;> cases hb : s.busy <;> simp [busWrite, hr, hb, writeCmd, writeInput]

/-- A host access answers a next state only for a 4-byte access at a multiple of 4 inside the window (rules
R61, R62). -/
theorem hostAccess_next {a : Access} {s t : State} (h : hostAccess a s = .next t) :
    a.off < Config.P_WINDOW ∧ a.width = 4 ∧ a.off % 4 = 0 ∧
      ((∃ v, a.write = some v ∧ t = busWrite a.off v s) ∨ (a.write = none ∧ t = busRead a.off s)) := by
  unfold hostAccess at h
  split_ifs at h with h1 h2
  rw [not_or, not_not, not_not] at h2
  refine ⟨Nat.lt_of_not_le h1, h2.1, h2.2, ?_⟩
  cases hw : a.write with
  | none =>
    rw [hw] at h
    exact Or.inr ⟨rfl, (Host.Outcome.next.inj h).symm⟩
  | some v =>
    rw [hw] at h
    exact Or.inl ⟨v, rfl, (Host.Outcome.next.inj h).symm⟩

/-- A well-formed access always takes effect (rule R61). -/
theorem hostAccess_of_wellFormed {a : Access} (h : a.wellFormed = true) (s : State) :
    hostAccess a s = .next (match a.write with | some v => busWrite a.off v s | none => busRead a.off s) := by
  simp only [Access.wellFormed, Access.widthOk, Access.aligned, Access.inWindow, Bool.and_eq_true,
    beq_iff_eq, decide_eq_true_eq] at h
  obtain ⟨⟨hw, ha⟩, ho⟩ := h
  unfold hostAccess
  rw [if_neg (by omega), if_neg (by simp [hw, ha])]
  cases a.write <;> rfl

@[simp] theorem mapNext_next (f : State → State) (s : State) : mapNext f (.next s) = .next (f s) := rfl

/-- A changed outcome is a next state only when the outcome was one. -/
theorem mapNext_eq_next {f : State → State} {o : Host.Outcome State Fault Refusal} {t : State}
    (h : mapNext f o = .next t) : ∃ u, o = .next u ∧ t = f u := by
  cases o with
  | next u => exact ⟨u, rfl, (Host.Outcome.next.inj h).symm⟩
  | fault r => cases h
  | refused r => cases h

/-- Recording a comparison changes nothing but the record (rule R90). -/
theorem noteExpected_eq (e : Option Word) (s : State) : ∃ b, noteExpected e s = { s with rdMismatch := b } := by
  cases e with
  | none => exact ⟨s.rdMismatch, rfl⟩
  | some v => exact ⟨_, rfl⟩

/-- A poll changes nothing but the host's place in its program (rule R90). -/
theorem pollNext_eq (mask val : Word) (rest : HostProgram) (s : State) :
    ∃ p, pollNext mask val rest s = { s with program := p } := by
  unfold pollNext
  split
  · exact ⟨rest, rfl⟩
  · exact ⟨s.program, rfl⟩

/-- What a host turn can do: no access at all, a read, or a write, with the host's own place in its program
and its record moved on (rules R15, R90). -/
theorem hostTurn_next {s t : State} (h : hostTurn s = .next t) :
    ∃ p b, t = { s with program := p } ∨
      (∃ off, ∃ u : State, u = busRead off { s with program := p } ∧ t = { u with rdMismatch := b }) ∨
      (∃ off q, ∃ u : State, u = busRead off s ∧ t = { u with program := q }) ∨
      (∃ off v, t = busWrite off v { s with program := p }) := by
  unfold hostTurn at h
  split at h
  · exact ⟨s.program, false, Or.inl (Host.Outcome.next.inj h).symm⟩
  · rename_i off v rest hp
    obtain ⟨-, -, -, ⟨w, hw, ht⟩ | ⟨hw, -⟩⟩ := hostAccess_next h
    · exact ⟨rest, false, Or.inr (Or.inr (Or.inr ⟨off, w, ht⟩))⟩
    · cases hw
  · rename_i off e rest hp
    obtain ⟨u, hu, ht⟩ := mapNext_eq_next h
    obtain ⟨-, -, -, ⟨w, hw, -⟩ | ⟨-, hu⟩⟩ := hostAccess_next hu
    · cases hw
    · obtain ⟨b, hb⟩ := noteExpected_eq e u
      exact ⟨rest, b, Or.inr (Or.inl ⟨off, u, hu, ht.trans hb⟩)⟩
  · rename_i off mask val rest hp
    obtain ⟨u, hu, ht⟩ := mapNext_eq_next h
    obtain ⟨-, -, -, ⟨w, hw, -⟩ | ⟨-, hu⟩⟩ := hostAccess_next hu
    · cases hw
    · obtain ⟨q, hq⟩ := pollNext_eq mask val rest u
      exact ⟨rest, false, Or.inr (Or.inr (Or.inl ⟨off, q, u, hu, ht.trans hq⟩))⟩
  · rename_i rest hp
    exact ⟨rest, false, Or.inl (Host.Outcome.next.inj h).symm⟩
  · rename_i n body rest hp
    exact ⟨_, false, Or.inl (Host.Outcome.next.inj h).symm⟩
  · rename_i a rest hp
    obtain ⟨-, -, -, ⟨w, hw, ht⟩ | ⟨hw, ht⟩⟩ := hostAccess_next h
    · exact ⟨rest, false, Or.inr (Or.inr (Or.inr ⟨a.off, w, ht⟩))⟩
    · refine ⟨rest, s.rdMismatch, Or.inr (Or.inl ⟨a.off, _, rfl, ?_⟩)⟩
      obtain ⟨n, hn⟩ := busRead_eq a.off { s with program := rest }
      rw [ht, hn]

/-- The engine's turn while IDLE does nothing (rule R42). -/
theorem engineTurn_idle {s : State} (h : s.busy = false) : engineTurn s = .next s := by
  simp [engineTurn, State.phase, h]

/-- The engine's turn while RUNNING is the completion step (rule R221). -/
theorem engineTurn_running {s : State} (h : s.busy = true) : engineTurn s = completionStep s := by
  simp [engineTurn, State.phase, h]

/-- Whose step it is (rule R15). -/
theorem step_cases (s : State) :
    (∃ ts, s.turns = .host :: ts ∧ step s = hostTurn { s with turns := ts }) ∨
    (∃ ts, s.turns = .engine :: ts ∧ step s = engineTurn { s with turns := ts }) ∨
    (∃ ts, s.turns = .reset :: ts ∧ step s = .next (resetInput { s with turns := ts })) ∨
    (s.turns = [] ∧ s.busy = true ∧ step s = engineTurn s) ∨
    (s.turns = [] ∧ s.busy = false ∧ step s = hostTurn s) := by
  cases hts : s.turns with
  | nil => cases hb : s.busy <;> simp [step, hts, hb]
  | cons x ts => cases x <;> simp [step, hts]

end Sys2Proof.Machine
end

