-- ==== Sys2Proof/Laws/Xts.lean ====
section
/-! SUPPORT. Laws of the commands: the checks, the lengths of the data paths, and what each command does to
the state, said once. -/

namespace Sys2Proof.Machine

/-- When the XTS checks accept (rule R140). -/
theorem xtsCheck_ok_iff (duMax : Nat) (c1 c2 : BitVec 2) (n : Word) :
    xtsCheck duMax c1 c2 n = .ok ↔ (c1 = 0#2 ∨ c1 = 2#2) ∧ c1 = c2 ∧ 16 ≤ n.toNat ∧ n.toNat ≤ duMax := by
  unfold xtsCheck
  constructor
  · intro h
    split_ifs at h with h1 h2 h3 h4 h5
    rw [not_or, not_not, not_not] at h1
    exact ⟨h1.1, not_not.mp h2, by omega, by omega⟩
  · rintro ⟨hc, rfl, hlo, hhi⟩
    rw [if_neg (by simp [hc]), if_neg (by simp), if_neg (by omega), if_neg (by omega), if_neg (by omega)]

@[simp] theorem maskedBlocks_length (f : Block → Block → Block) (count : Nat) (T0 : Block) (X : List Byte) :
    (maskedBlocks f count T0 X).length = 16 * count := by
  simp [maskedBlocks, List.length_flatMap, Nat.mul_comm]

/-- Rule R150 for encryption: the output is as long as the input. -/
theorem xtsEncrypt_length (p : BlockCipher) (K1 : AesKey) (T0 : Block) (X : List Byte) (h : 16 ≤ X.length) :
    (xtsEncrypt p K1 T0 X).length = X.length := by
  unfold xtsEncrypt partition
  split_ifs with h0
  · simp only [maskedBlocks_length]
    omega
  · simp only [encSteal, List.length_append, maskedBlocks_length, blockBytes_length, List.length_take]
    omega

/-- Rule R150 for decryption: the output is as long as the input. -/
theorem xtsDecrypt_length (p : BlockCipher) (K1 : AesKey) (T0 : Block) (X : List Byte) (h : 16 ≤ X.length) :
    (xtsDecrypt p K1 T0 X).length = X.length := by
  unfold xtsDecrypt partition
  split_ifs with h0
  · simp only [maskedBlocks_length]
    omega
  · simp only [decSteal, List.length_append, maskedBlocks_length, blockBytes_length, List.length_take]
    omega

theorem xtsTransform_length (p : BlockCipher) (dir : AesDir) (K1 : AesKey) (T0 : Block) (X : List Byte)
    (h : 16 ≤ X.length) : (xtsTransform p dir K1 T0 X).length = X.length := by
  cases dir
  · exact xtsEncrypt_length p K1 T0 X h
  · exact xtsDecrypt_length p K1 T0 X h

@[simp] theorem dinBytes_length (s : State) (n : Nat) : (dinBytes s n).length = n := readBytes_length _ _ _

/-- What an XTS command does: it completes with the checks' code, or writes its output (rules R158, R159). -/
theorem xtsCommand_cases (p : BlockCipher) (dir : AesDir) (s : State) :
    (∃ e, e ≠ .ok ∧ xtsCheck s.duMax s.k1len s.k2len s.len = e ∧ xtsCommand p dir s = finishErr e s) ∨
    (xtsCheck s.duMax s.k1len s.k2len s.len = .ok ∧
      xtsCommand p dir s =
        finishOk (xtsTransform p dir (aesKey s.key1 s.k1len) (initialTweak p s) (dinBytes s s.len.toNat)) 0 s) := by
  unfold xtsCommand
  cases h : xtsCheck s.duMax s.k1len s.k2len s.len <;> simp

/-- What an AES command does: INVALID_PARAM for code 3, PRIM_FAIL for code 1, one block else (rules R124,
R125). -/
theorem aesCommand_cases (p : BlockCipher) (dir : AesDir) (keySel : Bool) (s : State) :
    ((selectedKey keySel s).2 = 3#2 ∧ aesCommand p dir keySel s = finishErr .invalidParam s) ∨
    ((selectedKey keySel s).2 = 1#2 ∧ aesCommand p dir keySel s = finishErr .primFail s) ∨
    (((selectedKey keySel s).2 = 0#2 ∨ (selectedKey keySel s).2 = 2#2) ∧
      aesCommand p dir keySel s =
        finishOk (blockBytes (blockFunction p dir (aesKey (selectedKey keySel s).1 (selectedKey keySel s).2)
          (dinBlock s))) 0 s) := by
  have hcode : ∀ c : BitVec 2, c = 3#2 ∨ c = 1#2 ∨ c = 0#2 ∨ c = 2#2 := by decide
  unfold aesCommand
  rcases hcode (selectedKey keySel s).2 with h | h | h | h <;> simp [h, aesw]

/-- Every way a command can complete: with an error and DOUT untouched, or with at most 4096 bytes of DOUT
written from its start (rules R40, R183). -/
theorem exec_finishes (i : Instr) (s : State) :
    (∃ e, e ≠ .ok ∧ exec i s = .next (finishErr e s)) ∨
    (∃ S, S.length ≤ bufferSize ∧ exec i s = .next (finishOk S 0 s)) := by
  have hx : ∀ dir, (∃ e, e ≠ .ok ∧ xtsCommand aesPrimitive dir s = finishErr e s) ∨
      (∃ S, S.length ≤ bufferSize ∧ xtsCommand aesPrimitive dir s = finishOk S 0 s) := by
    intro dir
    rcases xtsCommand_cases aesPrimitive dir s with ⟨e, he, -, h⟩ | ⟨hc, h⟩
    · exact Or.inl ⟨e, he, h⟩
    · obtain ⟨-, -, hlo, hhi⟩ := (xtsCheck_ok_iff _ _ _ _).mp hc
      refine Or.inr ⟨_, ?_, h⟩
      rw [xtsTransform_length _ _ _ _ _ (by simpa using hlo), dinBytes_length]
      exact hhi.trans s.duMax.property.2
  have ha : ∀ dir k, (∃ e, e ≠ .ok ∧ aesCommand aesPrimitive dir k s = finishErr e s) ∨
      (∃ S, S.length ≤ bufferSize ∧ aesCommand aesPrimitive dir k s = finishOk S 0 s) := by
    intro dir k
    rcases aesCommand_cases aesPrimitive dir k s with ⟨-, h⟩ | ⟨-, h⟩ | ⟨-, h⟩
    · exact Or.inl ⟨_, by decide, h⟩
    · exact Or.inl ⟨_, by decide, h⟩
    · exact Or.inr ⟨_, by simp [bufferSize], h⟩
  cases i with
  | xtsEnc => simpa [exec, execXtsEnc] using hx .enc
  | xtsDec => simpa [exec, execXtsDec] using hx .dec
  | aesEncK1 => simpa [exec, execAesEncK1] using ha .enc false
  | aesEncK2 => simpa [exec, execAesEncK2] using ha .enc true
  | aesDecK1 => simpa [exec, execAesDecK1] using ha .dec false
  | aesDecK2 => simpa [exec, execAesDecK2] using ha .dec true
  | gfMulx => exact Or.inr ⟨_, by simp [bufferSize], rfl⟩

/-- The same of the completion step, an illegal word included (rules R85, R221). -/
theorem completionStep_finishes (s : State) :
    (∃ e, e ≠ .ok ∧ completionStep s = .next (finishErr e s)) ∨
    (∃ S, S.length ≤ bufferSize ∧ completionStep s = .next (finishOk S 0 s)) := by
  unfold completionStep
  split
  · exact exec_finishes _ s
  · exact Or.inl ⟨.illegalCmd, by decide, rfl⟩

end Sys2Proof.Machine
end

