-- ==== Sys2Proof/Laws/Paths.lean ====
section
/-! SUPPORT. Laws of completions in the terms of Safety.lean, of slices of the data paths, and of the input
offsets, and that the keys, the tweak and the checks of the model are those the statements spell out: small
facts for the statements' proofs to cite. -/

namespace Sys2Proof.Machine

/-- Completing with a code leaves DOUT and everything else as it was (rule R184). -/
theorem completed_finishErr (e : ErrCode) (s : State) : Completed e 0 s (finishErr e s) where
  busy := rfl
  done := rfl
  err := rfl
  scratch := rfl
  cmdLost := rfl
  wrIgn := rfl
  hidCmd := rfl
  inputs := ⟨rfl, rfl, rfl, rfl, rfl, rfl, rfl, rfl, fun _ _ _ => rfl⟩
  host := ⟨rfl, rfl, rfl, rfl, rfl, rfl⟩
  memory := fun _ _ => rfl

/-- Completing with OK writes the given bytes at the start of DOUT and nothing else (rule R183). -/
theorem completed_finishOk (S : List Byte) (s : State) : Completed .ok S.length s (finishOk S 0 s) where
  busy := rfl
  done := rfl
  err := rfl
  scratch := rfl
  cmdLost := rfl
  wrIgn := rfl
  hidCmd := rfl
  inputs := ⟨rfl, rfl, rfl, rfl, rfl, rfl, rfl, rfl, fun a _ h =>
    readByte_finishOk_frame S 0 s (Or.inl (by simp [DIN, DOUT, bufferSize] at *; omega))⟩
  host := ⟨rfl, rfl, rfl, rfl, rfl, rfl⟩
  memory := fun a h => readByte_finishOk_frame S 0 s h

/-- What a completion with OK stored, read back slice by slice. -/
theorem readBytes_finishOk (S : List Byte) (s : State) (a n : Nat) (h : a + n ≤ S.length) :
    readBytes (finishOk S 0 s) (DOUT + a) n = sliceBytes S a (a + n) := by
  apply List.ext_getElem
  · simp; omega
  · intro k h1 h2
    rw [readBytes_getElem]
    simp at h1
    rw [Nat.add_assoc]
    have := readByte_finishOk S 0 s (a + k) (by omega)
    rw [Nat.add_zero] at this
    rw [this]
    simp [sliceBytes]

/-- A slice of consecutive bytes is the bytes from its start on (rule R9). -/
theorem sliceBytes_readBytes (s : State) (a n i j : Nat) (h : j ≤ n) :
    sliceBytes (readBytes s a n) i j = readBytes s (a + i) (j - i) := by
  apply List.ext_getElem
  · simp; omega
  · intro k h1 h2
    rw [readBytes_getElem]
    simp only [sliceBytes, List.getElem_drop, List.getElem_take]
    rw [readBytes_getElem]; congr 1; omega

/-- Block `i` of the input read from DIN (rule R143). -/
theorem blockAt_dinBytes (s : State) (n i : Nat) (h : 16 * i + 16 ≤ n) : blockAt (dinBytes s n) i = dinBlockAt s i := by
  unfold blockAt dinBlockAt dinBytes
  rw [sliceBytes_readBytes _ _ _ _ _ h]; congr 2; omega

/-- Block `i` of the masked blocks (rules R144 to R146). -/
theorem sliceBytes_maskedBlocks (f : Block → Block → Block) (count : Nat) (T0 : Block) (X : List Byte) (i : Nat)
    (hi : i < count) :
    sliceBytes (maskedBlocks f count T0 X) (16 * i) (16 * i + 16) = blockBytes (f (blockAt X i) (mulxPow i T0)) := by
  induction count with
  | zero => omega
  | succ c ih =>
    have hs : maskedBlocks f (c + 1) T0 X =
        maskedBlocks f c T0 X ++ blockBytes (f (blockAt X c) (mulxPow c T0)) := by
      simp [maskedBlocks, List.range_succ]
    rw [hs]
    by_cases h : i < c
    · rw [← ih h]; unfold sliceBytes
      rw [List.take_append_of_le_length (by simp; omega)]
    · have : i = c := by omega
      subst this
      unfold sliceBytes
      rw [List.take_of_length_le (by simp), List.drop_append_of_le_length (by simp),
        List.drop_eq_nil_of_le (by simp)]
      rfl

/-- The XTS checks accept exactly the registers that `XtsAccepts` names (rule R140). -/
theorem xtsCheck_of_accepts (s : State) (h : XtsAccepts s) : xtsCheck s.duMax s.k1len s.k2len s.len = .ok := by
  rw [xtsCheck_ok_iff]; obtain ⟨a,b,c,d⟩ := h; exact ⟨a, b.symm, c, d⟩

/-- The input registers and DIN, by the map and by their offsets (rules R21, R222). -/
theorem inputOffset_iff {off : Nat} (h : off % 4 = 0) :
    InputOffset off ↔ (busReg off = .cfg ∨ busReg off = .len ∨ (∃ j, busReg off = .key1 j) ∨
      (∃ j, busReg off = .key2 j) ∨ (∃ j, busReg off = .tweak j) ∨ busReg off = .din) := by
  have hc := busReg_covers off
  unfold InputOffset
  cases hr : busReg off <;> rw [hr] at hc <;> simp only [BusReg.covers, List.mem_cons, List.not_mem_nil] at hc <;>
    simp <;> omega

/-- A reserved offset names nothing (rule R41). -/
theorem busReg_of_reservedOffset {off : Nat} (h : ReservedOffset off) : busReg off = .reserved := by
  unfold ReservedOffset at h
  rw [busReg_eq_iff]
  simp only [BusReg.covers, List.mem_cons, List.not_mem_nil, or_false, not_or]
  omega

/-- The checks the model makes are the verdict of the statements (rule R140). -/
theorem xtsCheck_eq_xtsVerdict (s : State) : xtsCheck s.duMax s.k1len s.k2len s.len = xtsVerdict s := by
  have h0 : s.len = 0#32 ↔ s.len.toNat = 0 := by simp [BitVec.toNat_eq]
  have h16 : s.len < 16#32 ↔ s.len.toNat < 16 := by simp [BitVec.lt_def]
  unfold xtsCheck xtsVerdict
  simp only [h0, h16, not_or, ne_eq]

/-- The number of a byte string is that of its parts (rule R9). -/
theorem leNat_append (a b : List Byte) : leNat (a ++ b) = leNat a + 256 ^ a.length * leNat b := by
  induction a with
  | nil => simp [leNat]
  | cons x a ih =>
    simp only [List.cons_append, leNat, ih, List.length_cons, Nat.pow_succ]
    ring

/-- The number of a word's lanes is the word (rule R64). -/
theorem leNat_wordBytes (w : Word) : leNat (wordBytes w) = w.toNat := by
  have hw : w.toNat < 2 ^ 32 := w.isLt
  rw [wordBytes, leNat_leBytes, Nat.mod_eq_of_lt (by simpa using hw)]

/-- The number that a list of words holds as bytes, word by word. -/
theorem leNat_words (w : Word) (ws : List Word) :
    leNat ((w :: ws).flatMap wordBytes) = w.toNat + 2 ^ 32 * leNat (ws.flatMap wordBytes) := by
  rw [List.flatMap_cons, leNat_append, leNat_wordBytes, wordBytes_length]
  norm_num

/-- A high part put over a low part is the sum of the numbers. -/
theorem toNat_append_eq {m n : Nat} (w : BitVec m) (v : BitVec n) : (w ++ v).toNat = v.toNat + 2 ^ n * w.toNat := by
  rw [BitVec.toNat_append, ← Nat.shiftLeft_add_eq_or_of_lt v.isLt, Nat.shiftLeft_eq]
  ring

/-- A register file of eight words, word by word. -/
theorem keyFile_toList (raw : Vector Word 8) :
    raw.toList = [raw[0], raw[1], raw[2], raw[3]] ++ [raw[4], raw[5], raw[6], raw[7]] := by
  apply List.ext_getElem
  · simp
  · intro k h1 h2
    have hk : k < 8 := by simpa using h1
    interval_cases k <;> simp

/-- Four words as one number. -/
theorem leNat_four (a b c d : Word) : leNat ([a, b, c, d].flatMap wordBytes) = (d ++ c ++ b ++ a).toNat := by
  simp only [leNat_words, List.flatMap_nil, leNat, toNat_append_eq, Nat.mul_zero, Nat.add_zero]

/-- The key the model takes from a key file is the one the statements read word by word (rule R36). -/
theorem aesKey_eq_keyPrefix (raw : Vector Word 8) (code : BitVec 2) : aesKey raw code = keyPrefix raw code := by
  have hr : registerBytes raw = [raw[0], raw[1], raw[2], raw[3]].flatMap wordBytes ++
      [raw[4], raw[5], raw[6], raw[7]].flatMap wordBytes := by
    rw [registerBytes, keyFile_toList, List.flatMap_append]
  have h4 : ∀ a b c d : Word, ([a, b, c, d].flatMap wordBytes).length = 16 := by simp
  unfold aesKey keyPrefix
  split
  · rw [hr, List.take_left' (h4 _ _ _ _), leNat_four, BitVec.ofNat_toNat, BitVec.setWidth_eq]
  · rw [List.take_of_length_le (by simp), hr, leNat_append, leNat_four, leNat_four, h4]
    congr 1
    apply BitVec.eq_of_toNat_eq
    have hlt : ∀ v : BitVec 256, v.toNat < 2 ^ 256 := fun v => v.isLt
    have he := hlt (raw[7] ++ raw[6] ++ raw[5] ++ raw[4] ++ raw[3] ++ raw[2] ++ raw[1] ++ raw[0])
    rw [BitVec.toNat_ofNat, Nat.mod_eq_of_lt]
    · simp only [toNat_append_eq]
      ring
    · refine lt_of_eq_of_lt ?_ he
      simp only [toNat_append_eq]
      ring

/-- The tweak the model takes from TWEAK is the one the statements read word by word (rule R37). -/
theorem tweakBlock_eq_tweakValue (s : State) : tweakBlock s = tweakValue s := by
  have ht : s.tweak.toList = [s.tweak[0], s.tweak[1], s.tweak[2], s.tweak[3]] := by
    apply List.ext_getElem
    · simp
    · intro k h1 h2
      have hk : k < 4 := by simpa using h1
      interval_cases k <;> simp
  rw [tweakBlock, blockOfBytes, registerBytes, ht, leNat_four, BitVec.ofNat_toNat, BitVec.setWidth_eq, tweakValue]

/-- The first tweak of an XTS command, as the statements read it (rule R141). -/
theorem initialTweak_eq_firstTweak (s : State) : initialTweak aesPrimitive s = firstTweak s := by
  rw [initialTweak, firstTweak, aesKey_eq_keyPrefix, tweakBlock_eq_tweakValue]

/-- The codes of rule R180 are 0 to 4. -/
theorem code_le_four (e : ErrCode) : e.code.toNat ≤ 4 := by cases e <;> decide

/-- A completion code is 0 exactly for OK (rule R180). -/
theorem code_eq_zero_iff (e : ErrCode) : e.code = 0x0#4 ↔ e = .ok := by cases e <;> decide

/-- A step of a run (the host's `run`). -/
theorem run_succ (M : Host.Core) (k : Nat) (s u : M.State) (h : M.step s = .next u) : M.run (k + 1) s = M.run k u := by
  rw [Host.Core.run.eq_2, h]

/-- INVSBOX undoes SBOX and the other way round (log entry 1). -/
theorem invSbox_sbox : ∀ x : Byte, invSbox (sbox x) = x := by decide +kernel

theorem sbox_invSbox : ∀ x : Byte, sbox (invSbox x) = x := by decide +kernel

end Sys2Proof.Machine
end

