-- ==== Sys2Proof/Laws/PerInstr.lean ====
section
/-! SUPPORT. Facts about every command as syntax, one lemma per constructor. -/

namespace Sys2Proof.Laws

/-- The command's word is legal (rule R84), carries no operand bit (rule R83: RSVD is 0), and exactly one row of
the opcode map selects it (rule R82). -/
def OneRow.Statement (i : Instr) : Prop :=
  legal (encode i) = true ∧ rsvdField (encode i) = 0#27 ∧
    (opcodeMap.filter (fun r => encode i &&& r.mask == r.pattern)).length = 1

theorem OneRow.xtsEnc : OneRow.Statement .xtsEnc := ⟨by decide, by decide, by decide⟩
theorem OneRow.xtsDec : OneRow.Statement .xtsDec := ⟨by decide, by decide, by decide⟩
theorem OneRow.aesEncK1 : OneRow.Statement .aesEncK1 := ⟨by decide, by decide, by decide⟩
theorem OneRow.aesEncK2 : OneRow.Statement .aesEncK2 := ⟨by decide, by decide, by decide⟩
theorem OneRow.aesDecK1 : OneRow.Statement .aesDecK1 := ⟨by decide, by decide, by decide⟩
theorem OneRow.aesDecK2 : OneRow.Statement .aesDecK2 := ⟨by decide, by decide, by decide⟩
theorem OneRow.gfMulx : OneRow.Statement .gfMulx := ⟨by decide, by decide, by decide⟩

end Sys2Proof.Laws
end

