-- ==== Sys2Proof/Tests/Slice0.lean ====
section
/-! SUPPORT. Tests: ill-formed accesses refused, command words written out from rule R88, one step per
command with the values of `95_test_vectors.md`, and for every statement with hypotheses a state and operands
that meet them (`test_hyps_<statement>`). -/

open Sys2Proof Sys2Proof.Machine

namespace Sys2Proof.Tests

/-! ### Helpers -/

/-- The `n`-byte string written in hex, first byte first (rule R8). -/
def hexBytes (n v : Nat) : List Byte := (leBytes n v).reverse

/-- A register file loaded with a byte string, the rest 0 (rule R91). -/
def fileOf (n : Nat) (bs : List Byte) : Vector Word n := Vector.ofFn fun j => (wordsOfBytes bs).getD j.val 0#32

/-- Reset with the length codes, keys, tweak, LEN and the first bytes of DIN loaded. -/
def loaded (c1 c2 : BitVec 2) (k1 k2 tw din : List Byte) (n : Word) : State :=
  { State.reset with k1len := c1, k2len := c2, key1 := fileOf 8 k1, key2 := fileOf 8 k2, tweak := fileOf 4 tw,
                     len := n, mem := Memory.cells DIN din }

/-- Only the codes and LEN loaded. -/
def codes (c1 c2 : BitVec 2) (n : Word) : State := loaded c1 c2 [] [] [] [] n

/-- A command completes with the code and these bytes at the start of DOUT. -/
def gives (o : Host.Outcome State Fault Refusal) (e : BitVec 4) (dout : List Byte) : Bool :=
  match o with
  | .next t => doutBytes t dout.length == dout && t.err == e && t.done && !t.busy
  | .fault _ => false
  | .refused _ => false

/-- A command completes with the code and writes no byte of the buffers. -/
def completesWith (o : Host.Outcome State Fault Refusal) (e : BitVec 4) (m : Memory) : Bool :=
  match o with
  | .next t => t.mem == m && t.err == e && t.done && !t.busy
  | .fault _ => false
  | .refused _ => false

/-- The state of vector X3 (`95_test_vectors.md` 2.4), 17 bytes. -/
def x3 (din : List Byte) : State :=
  loaded 0 0 (hexBytes 16 0xfffefdfcfbfaf9f8f7f6f5f4f3f2f1f0) (hexBytes 16 0xbfbebdbcbbbab9b8b7b6b5b4b3b2b1b0)
    (hexBytes 16 0x9a785634120000000000000000000000) din 17
def x3Plain : List Byte := hexBytes 17 0x000102030405060708090a0b0c0d0e0f10
def x3Cipher : List Byte := hexBytes 17 0x6c1625db4671522d3d7599601de7ca09ed

/-- The state of vector 1.1, one block. -/
def v11 (din : List Byte) : State :=
  loaded 0 0 (hexBytes 16 0x46e6ed9ef42dcdb3c893093c28e1fc0f) (hexBytes 16 0x91f5caa3b6e0bc5a14e783215c1d5b61)
    (hexBytes 16 0x72f3b054cbdc2f9e3c5bc551d44ddba0) din 16
def v11Plain : List Byte := hexBytes 16 0xe3778d68e730ef945b4ae3bc5b936bdd
def v11Cipher : List Byte := hexBytes 16 0x97409f1f71ae4521cb49a32973de4d05

/-- The key and block of vectors A1 to A4. -/
def keyA1 : List Byte := hexBytes 16 0x000102030405060708090a0b0c0d0e0f
def keyA3 : List Byte := hexBytes 32 0x000102030405060708090a0b0c0d0e0f101112131415161718191a1b1c1d1e1f
def blockA1 : List Byte := hexBytes 16 0x00112233445566778899aabbccddeeff

/-! ### WellFormed: an ill-formed term for each check (rules R61, B9) -/

theorem test_wf_width_refused : (Access.mk 0x0000 2 none).widthOk = false ∧ (Access.mk 0x0000 2 none).wellFormed = false := by
  decide
theorem test_wf_alignment_refused :
    (Access.mk 0x0002 4 none).aligned = false ∧ (Access.mk 0x0002 4 none).wellFormed = false := by decide
theorem test_wf_window_refused :
    (Access.mk 0x4000 4 none).inWindow = false ∧ (Access.mk 0x4000 4 none).wellFormed = false := by decide
theorem test_wf_access_accepted : (Access.mk 0x3FFC 4 none).wellFormed = true := by decide
theorem test_wf_program_refused :
    (HostProgram.wr 0x0000 .lastRead (.rep 1 (.rd 0x4002 none .done) .done)).wellFormed = false := by decide

/-! ### Decoding, the words written out from rule R88 and `95_test_vectors.md` 2.6 -/

theorem test_decode_xtsEnc : decodeBytes [0x01#8, 0#8, 0#8, 0#8] = .ok (.xtsEnc, []) := by rfl
theorem test_decode_xtsDec : decodeBytes [0x02#8, 0#8, 0#8, 0#8] = .ok (.xtsDec, []) := by rfl
theorem test_decode_aesEncK1 : decodeBytes [0x03#8, 0#8, 0#8, 0#8] = .ok (.aesEncK1, []) := by rfl
theorem test_decode_aesEncK2 : decodeBytes [0x13#8, 0#8, 0#8, 0#8] = .ok (.aesEncK2, []) := by rfl
theorem test_decode_aesDecK1 : decodeBytes [0x04#8, 0#8, 0#8, 0#8] = .ok (.aesDecK1, []) := by rfl
theorem test_decode_aesDecK2 : decodeBytes [0x14#8, 0#8, 0#8, 0#8] = .ok (.aesDecK2, []) := by rfl
theorem test_decode_gfMulx : decodeBytes [0x05#8, 0#8, 0#8, 0#8] = .ok (.gfMulx, []) := by rfl

/-- The illegal words of `95_test_vectors.md` 2.6. -/
theorem test_decode_illegal :
    ([0x00, 0x06, 0x07, 0x0E, 0x0F, 0x10, 0x11, 0x12, 0x15, 0x21, 0x80000001] : List Nat).all
      (fun w => decodeTableWord 32 w == none && !legal (BitVec.ofNat 32 w)) = true := by decide
theorem test_decode_truncated : decodeBytes [0x01#8, 0#8, 0#8] = .error .truncated := by rfl
theorem test_decodeTableWord :
    ([0x01, 0x02, 0x03, 0x13, 0x04, 0x14, 0x05] : List Nat).map (decodeTableWord 32) =
      [some .xtsEnc, some .xtsDec, some .aesEncK1, some .aesEncK2, some .aesDecK1, some .aesDecK2, some .gfMulx] := by
  decide

/-! ### One step per command, with the values of `95_test_vectors.md` -/

/-- Vector 1.1. -/
theorem test_xtsEnc_block : gives (exec .xtsEnc (v11 v11Plain)) 0x0#4 v11Cipher = true := by decide +kernel
/-- Vector X3: ciphertext stealing. -/
theorem test_xtsEnc_stealing : gives (exec .xtsEnc (x3 x3Plain)) 0x0#4 x3Cipher = true := by decide +kernel
/-- Vector X3 backwards. -/
theorem test_xtsDec_stealing : gives (exec .xtsDec (x3 x3Cipher)) 0x0#4 x3Plain = true := by decide +kernel
/-- Vector 1.1 backwards. -/
theorem test_xtsDec_block : gives (exec .xtsDec (v11 v11Cipher)) 0x0#4 v11Plain = true := by decide +kernel
/-- Vector A1. -/
theorem test_aesEncK1 : gives (exec .aesEncK1 (loaded 0 0 keyA1 [] [] blockA1 0)) 0x0#4
    (hexBytes 16 0x69c4e0d86a7b0430d8cdb78070b4c55a) = true := by decide +kernel
/-- Vector A7. -/
theorem test_aesEncK1_primFail : completesWith (exec .aesEncK1 (codes 1 0 0)) 0x3#4 [] = true := by decide +kernel
/-- Vector A3. -/
theorem test_aesEncK2 : gives (exec .aesEncK2 (loaded 0 2 [] keyA3 [] blockA1 0)) 0x0#4
    (hexBytes 16 0x8ea2b7ca516745bfeafc49904b496089) = true := by decide +kernel
/-- Vector A9: the other key's code 3 does not matter. -/
theorem test_aesEncK2_other_code :
    gives (exec .aesEncK2 (loaded 3 0 [] (hexBytes 16 0x91f5caa3b6e0bc5a14e783215c1d5b61) []
      (hexBytes 16 0x72f3b054cbdc2f9e3c5bc551d44ddba0) 0)) 0x0#4
      (hexBytes 16 0x894ccf9475a915f38f8361ec6a9df25b) = true := by decide +kernel
/-- Vector A2. -/
theorem test_aesDecK1 : gives (exec .aesDecK1 (loaded 0 0 keyA1 [] []
    (hexBytes 16 0x69c4e0d86a7b0430d8cdb78070b4c55a) 0)) 0x0#4 blockA1 = true := by decide +kernel
/-- Vector A8. -/
theorem test_aesDecK1_invalid : completesWith (exec .aesDecK1 (codes 3 0 0)) 0x1#4 [] = true := by decide +kernel
/-- Vector A4. -/
theorem test_aesDecK2 : gives (exec .aesDecK2 (loaded 0 2 [] keyA3 []
    (hexBytes 16 0x8ea2b7ca516745bfeafc49904b496089) 0)) 0x0#4 blockA1 = true := by decide +kernel
/-- Vector A10. -/
theorem test_aesDecK2_primFail : completesWith (exec .aesDecK2 (codes 0 1 0)) 0x3#4 [] = true := by decide +kernel
/-- Vector M9: reduction with mixed bytes. -/
theorem test_gfMulx : gives (exec .gfMulx (v11 [])) 0x0#4
    (hexBytes 16 0x63e661a996b95f3c79b68aa3a89bb641) = true := by decide +kernel
/-- Vector M4: the carry across the middle. -/
theorem test_gfMulx_carry :
    gives (exec .gfMulx (loaded 0 0 [] [] (hexBytes 16 0x00000000000000800000000000000000) [] 0)) 0x0#4
      (hexBytes 16 0x00000000000000000100000000000000) = true := by decide +kernel

/-- Vectors E1, E2, E6, E8, E9, E11: the XTS checks and their order. -/
theorem test_xtsEnc_checks :
    (completesWith (exec .xtsEnc (codes 0 0 0)) 0x1#4 [] && completesWith (exec .xtsEnc (codes 0 0 1)) 0x2#4 [] &&
     completesWith (exec .xtsEnc (codes 0 0 4097)) 0x1#4 [] && completesWith (exec .xtsEnc (codes 0 2 32)) 0x1#4 [] &&
     completesWith (exec .xtsEnc (codes 1 1 32)) 0x1#4 [] && completesWith (exec .xtsEnc (codes 0 2 5)) 0x1#4 []) = true := by
  decide +kernel
/-- Vectors E3, E7, E10. -/
theorem test_xtsDec_checks :
    (completesWith (exec .xtsDec (codes 0 0 15)) 0x2#4 [] && completesWith (exec .xtsDec (codes 0 0 0xFFFFFFFF)) 0x1#4 [] &&
     completesWith (exec .xtsDec (codes 3 3 32)) 0x1#4 []) = true := by decide +kernel

/-- The command word 0x15 completes with ILLEGAL_CMD as the first step after reset (program P4). -/
theorem test_step_illegal : completesWith (step (State.reset.withFetchWord 32 0x15)) 0x4#4 [] = true := by decide +kernel
/-- GF.MULX as the first step after reset (vector M1). -/
theorem test_step_gfMulx : gives (step (State.reset.withFetchWord 32 0x05)) 0x0#4 (hexBytes 16 0) = true := by decide +kernel

/-! ### Register access, vectors B1 to B15 -/

theorem test_B1_B2_B6_B8 : busReadValue 0x0000 State.reset = 0x58545331#32 ∧ busReadValue 0x0014 State.reset = 0x1000#32 ∧
    busReadValue 0x0008 State.reset = 0#32 ∧ busReadValue 0x0018 State.reset = 0#32 ∧
    busReadValue 0x0FFC State.reset = 0#32 ∧ busReadValue 0x3000 State.reset = 0#32 := by decide
theorem test_B3 : busReadValue 0x000C (busWrite 0x000C 0xFFFFFFFF#32 State.reset) = 0x0000010F#32 := by decide
theorem test_B4 : busReadValue 0x0040 (busWrite 0x0040 0x12345678#32 State.reset) = 0#32 ∧
    (registerBytes (busWrite 0x0040 0x12345678#32 State.reset).key1).take 4 = [0x78#8, 0x56#8, 0x34#8, 0x12#8] := by
  decide +kernel
theorem test_B5 : busReadValue 0x0080 (busWrite 0x0080 0x12345678#32 State.reset) = 0x12345678#32 ∧
    (registerBytes (busWrite 0x0080 0x12345678#32 State.reset).tweak).take 4 = [0x78#8, 0x56#8, 0x34#8, 0x12#8] := by
  decide +kernel
theorem test_B7 : busWrite 0x2000 1#32 State.reset = State.reset := by rfl
theorem test_B9 : hostAccess ⟨0x0000, 1, none⟩ State.reset = .fault (.busError 0x0000) ∧
    hostAccess ⟨0x0000, 2, some 1#32⟩ State.reset = .fault (.busError 0x0000) ∧
    hostAccess ⟨0x0002, 4, none⟩ State.reset = .fault (.busError 0x0002) := ⟨rfl, rfl, rfl⟩
/-- STATUS = 0x2E, then a write of 4 leaves 0x2A (B10). -/
theorem test_B10 : statusWord { State.reset with err := 2, done := true, cmdLost := true, wrIgn := true } = 0x2E#32 ∧
    statusWord (busWrite 0x0004 0x4#32 { State.reset with err := 2, done := true, cmdLost := true, wrIgn := true }) = 0x2A#32 := by
  decide
theorem test_B11 : ({ State.reset with done := true, ie := true } : State).irq = true ∧
    (busWrite 0x0004 0x2#32 { State.reset with done := true, ie := true }).irq = false := by decide
theorem test_B12 : busWrite 0x0010 0x20#32 { State.reset with busy := true } =
    { State.reset with busy := true, wrIgn := true } := by rfl
theorem test_B13 : busWrite 0x0008 0x5#32 { State.reset with busy := true } =
    { State.reset with busy := true, cmdLost := true } := by rfl
/-- A STATUS read after acceptance over a completion with code 2 (B15). -/
theorem test_B15 : statusWord (busWrite 0x0008 0x1#32 { State.reset with err := 2, done := true }) = 0x21#32 := by decide

/-! ### The hypotheses of each statement are met together, at the boundary of each range -/

/-- A RUNNING machine with the given command word. -/
def running (c : Word) : State := { State.reset with busy := true, hidCmd := c }

/-- The state a step ends in. -/
def after (o : Host.Outcome State Fault Refusal) (s : State) : State :=
  match o with
  | .next t => t
  | .fault _ => s
  | .refused _ => s

/-- A cipher that obeys the law of rule R120 (a). -/
def plainCipher : BlockCipher := ⟨fun _ B => B, fun _ B => B⟩

theorem test_hyps_DecodeAndEncodeAgree : Instr.xtsEnc.wellFormed = true ∧ Instr.gfMulx.wellFormed = true := by decide

theorem test_hyps_IllegalWordsCompleteWithIllegalCmd :
    (legal 0x15#32 = false ∧ State.reset.busy = false) ∧ (legal 0x80000001#32 = false ∧ State.reset.busy = false) ∧
    legal (running 0x21#32).hidCmd = false := by decide

theorem test_hyps_StepRunsTheDecodedCommand :
    (decode (running 5#32).hidCmd = .ok .gfMulx ∧ ({ running 5#32 with turns := [.engine] } : State).busy = true ∧
      ({ running 5#32 with turns := [.engine] } : State).turns = .engine :: []) ∧
    ((running 5#32).busy = true ∧ (running 5#32).turns = []) ∧
    (({ State.reset with turns := [.engine, .host] } : State).busy = false ∧
      ({ State.reset with turns := [.engine, .host] } : State).turns = .engine :: [.host]) ∧
    ({ State.reset with turns := [.host] } : State).turns = .host :: [] ∧
    (State.reset.busy = false ∧ State.reset.turns = []) := ⟨⟨rfl, rfl, rfl⟩, ⟨rfl, rfl⟩, ⟨rfl, rfl⟩, rfl, rfl, rfl⟩

theorem test_hyps_AesEncCompletes : (codes 0 2 0).k1len = 0#2 ∧ (codes 2 0 0).k1len = 2#2 ∧
    (codes 3 0 0).k2len = 0#2 ∧ (codes 0 2 0).k2len = 2#2 := by decide
theorem test_hyps_AesDecCompletes : (codes 0 1 0).k1len = 0#2 ∧ (codes 2 3 0).k1len = 2#2 ∧
    (codes 1 0 0).k2len = 0#2 ∧ (codes 0 2 0).k2len = 2#2 := by decide
theorem test_hyps_AesKeyCodeVerdicts : (codes 3 0 0).k1len = 3#2 ∧ (codes 1 0 0).k1len = 1#2 ∧
    (codes 0 3 0).k2len = 3#2 ∧ (codes 0 1 0).k2len = 1#2 := by decide

theorem test_hyps_PrimFailExactlyForCodeOne :
    (exec .aesEncK1 (codes 1 0 0) = .next (after (exec .aesEncK1 (codes 1 0 0)) State.reset) ∧
      (after (exec .aesEncK1 (codes 1 0 0)) State.reset).err = 0x3#4) ∧
    (exec .aesDecK2 (codes 0 1 0) = .next (after (exec .aesDecK2 (codes 0 1 0)) State.reset) ∧
      (after (exec .aesDecK2 (codes 0 1 0)) State.reset).err = 0x3#4) := ⟨⟨rfl, by decide⟩, rfl, by decide⟩

theorem test_hyps_XtsEncWholeBlocks :
    (XtsAccepts (codes 0 0 16) ∧ (codes 0 0 16).len.toNat % 16 = 0) ∧
    (XtsAccepts (codes 2 2 4096) ∧ (codes 2 2 4096).len.toNat % 16 = 0) :=
  ⟨⟨⟨by decide, by decide, by decide, by decide⟩, by decide⟩, ⟨by decide, by decide, by decide, by decide⟩, by decide⟩
theorem test_hyps_XtsDecWholeBlocks :
    (XtsAccepts (codes 2 2 16) ∧ (codes 2 2 16).len.toNat % 16 = 0) ∧
    (XtsAccepts (codes 0 0 4096) ∧ (codes 0 0 4096).len.toNat % 16 = 0) :=
  ⟨⟨⟨by decide, by decide, by decide, by decide⟩, by decide⟩, ⟨by decide, by decide, by decide, by decide⟩, by decide⟩
theorem test_hyps_XtsEncStealing :
    (XtsAccepts (codes 0 0 17) ∧ (codes 0 0 17).len.toNat % 16 ≠ 0) ∧
    (XtsAccepts (codes 2 2 4095) ∧ (codes 2 2 4095).len.toNat % 16 ≠ 0) :=
  ⟨⟨⟨by decide, by decide, by decide, by decide⟩, by decide⟩, ⟨by decide, by decide, by decide, by decide⟩, by decide⟩
theorem test_hyps_XtsDecStealing :
    (XtsAccepts (codes 2 2 31) ∧ (codes 2 2 31).len.toNat % 16 ≠ 0) ∧
    (XtsAccepts (codes 0 0 4095) ∧ (codes 0 0 4095).len.toNat % 16 ≠ 0) :=
  ⟨⟨⟨by decide, by decide, by decide, by decide⟩, by decide⟩, ⟨by decide, by decide, by decide, by decide⟩, by decide⟩

/-- Each verdict of the checks at the boundaries of LEN, and under another `P_DU_MAX`. -/
theorem test_hyps_XtsChecksInOrder :
    (xtsVerdict (codes 1 0 16) = .invalidParam ∧ xtsVerdict (codes 0 2 16) = .invalidParam) ∧
    (xtsVerdict (codes 0 0 0) = .invalidParam ∧ xtsVerdict (codes 0 0 1) = .unsupportedDuSize) ∧
    (xtsVerdict (codes 0 0 15) = .unsupportedDuSize ∧ xtsVerdict (codes 0 0 16) = .ok) ∧
    (xtsVerdict (codes 2 2 4096) = .ok ∧ xtsVerdict (codes 2 2 4097) = .invalidParam) ∧
    (xtsVerdict { codes 0 0 512 with duMax := ⟨512, by decide⟩ } = .ok ∧
      xtsVerdict { codes 0 0 513 with duMax := ⟨512, by decide⟩ } = .invalidParam) := by decide

theorem test_hyps_XtsRoundTrip : plainCipher.Lawful ∧ 16 ≤ x3Plain.length ∧ 16 ≤ v11Plain.length :=
  ⟨fun _ _ => ⟨rfl, rfl⟩, by decide +kernel, by decide +kernel⟩

/-- XTS.DEC on the output that XTS.ENC gives in vector X3, copied to DIN. -/
theorem test_hyps_XtsMachineRoundTrip :
    ∃ s t u v, exec .xtsEnc s = .next t ∧ t.err = 0x0#4 ∧
      u.k1len = s.k1len ∧ u.k2len = s.k2len ∧ u.key1 = s.key1 ∧ u.key2 = s.key2 ∧ u.tweak = s.tweak ∧
      u.len = s.len ∧ u.duMax = s.duMax ∧ (∀ k < s.len.toNat, readByte u (DIN + k) = readByte t (DOUT + k)) ∧ exec .xtsDec u = .next v := by
  refine ⟨x3 x3Plain, after (exec .xtsEnc (x3 x3Plain)) State.reset, x3 x3Cipher,
    after (exec .xtsDec (x3 x3Cipher)) State.reset, rfl, ?_, rfl, rfl, rfl, rfl, rfl, rfl, rfl, ?_, rfl⟩
  · decide +kernel
  · decide +kernel

theorem test_hyps_MaskedTransformsAreInverse : plainCipher.Lawful := fun _ _ => ⟨rfl, rfl⟩

theorem test_hyps_XtsPreservesLength : 16 ≤ x3Plain.length ∧
    exec .xtsEnc (x3 x3Plain) = .next (after (exec .xtsEnc (x3 x3Plain)) State.reset) ∧
    (after (exec .xtsEnc (x3 x3Plain)) State.reset).err = 0x0#4 := ⟨by decide +kernel, rfl, by decide +kernel⟩

/-- Key files that differ in words 4 to 7 only: KEY1 alone, while K2LEN is 2, and both. -/
theorem test_hyps_ShortKeyIgnoresUpperWords :
    (let s := loaded 0 2 keyA1 keyA3 [] blockA1 16;
      fileOf 8 keyA3 ≠ s.key1 ∧ s.k1len = 0#2 ∧ (∀ j : Fin 8, j.val < 4 → (fileOf 8 keyA3)[j] = s.key1[j]) ∧
        s.key2 = s.key2) ∧
    (let s := loaded 0 0 keyA1 keyA1 [] blockA1 16;
      fileOf 8 keyA3 ≠ s.key1 ∧ s.k1len = 0#2 ∧ (∀ j : Fin 8, j.val < 4 → (fileOf 8 keyA3)[j] = s.key1[j]) ∧
        s.k2len = 0#2 ∧ ∀ j : Fin 8, j.val < 4 → (fileOf 8 keyA3)[j] = s.key2[j]) := by decide +kernel

/-- Reset with every register that is no input changed. -/
def otherRegisters : State :=
  { State.reset with done := true, cmdLost := true, wrIgn := true, err := 2, hidCmd := 7#32, lastRead := 9#32 }

theorem test_hyps_OperationsAreIndependent :
    SameInputs State.reset otherRegisters ∧
    (∀ a, DOUT ≤ a → a < DOUT + bufferSize → readByte otherRegisters a = readByte State.reset a) :=
  ⟨⟨rfl, rfl, rfl, rfl, rfl, rfl, rfl, rfl, fun _ _ _ => rfl⟩, fun _ _ _ => rfl⟩

/-- States that differ in keys, tweak and data only. -/
theorem test_hyps_ErrorsRevealNothingSecret :
    (v11 v11Plain).hidCmd = (codes 0 0 16).hidCmd ∧ (v11 v11Plain).k1len = (codes 0 0 16).k1len ∧
    (v11 v11Plain).k2len = (codes 0 0 16).k2len ∧ (v11 v11Plain).len = (codes 0 0 16).len ∧
    (v11 v11Plain).duMax = (codes 0 0 16).duMax := ⟨rfl, rfl, rfl, rfl, rfl⟩

theorem test_hyps_ErrorCompletionWritesNothing :
    completionStep (running 0x15#32) = .next (after (completionStep (running 0x15#32)) State.reset) ∧
    (after (completionStep (running 0x15#32)) State.reset).err ≠ 0x0#4 := ⟨rfl, by decide⟩

theorem test_hyps_EngineWritesOnlyStatusAndOutput :
    engineTurn (running 5#32) = .next (after (engineTurn (running 5#32)) State.reset) ∧
    engineTurn State.reset = .next State.reset := ⟨rfl, rfl⟩

/-- A scratch that is not zero before the completion. -/
theorem test_hyps_ScratchIsZeroedAtCompletion :
    completionStep { running 5#32 with scratch := { Scratch.zero with T := 1#128, I := 3#8 } } =
      .next (after (completionStep { running 5#32 with scratch := { Scratch.zero with T := 1#128, I := 3#8 } }) State.reset) :=
  rfl

/-- A running machine, a host that polls and writes, and two host turns before the engine's. -/
theorem test_hyps_EveryAcceptedOperationCompletes :
    let s : State := { running 1#32 with program := .poll 0x0004 1#32 0#32 (.wr 0x3FFC (.imm 1#32) .done),
                                         turns := [.host, .host] }
    s.busy = true ∧ s.program.wellFormed = true ∧ (∀ x ∈ s.turns, x ≠ Turn.reset) := by decide

theorem test_hyps_MalformedAccessGetsBusError :
    ((Access.mk 0x0000 2 none).off < 0x4000 ∧ (Access.mk 0x0000 2 none).width ≠ 4) ∧
    ((Access.mk 0x3FFE 4 none).off < 0x4000 ∧ (Access.mk 0x3FFE 4 none).off % 4 ≠ 0) ∧
    ({ State.reset with program := .bus ⟨0x0002, 4, none⟩ .done } : State).program = .bus ⟨0x0002, 4, none⟩ .done ∧
    ((0x0000 < 0x4000 ∧ 0x0000 % 4 = 0) ∧ 0x3FFC < 0x4000 ∧ 0x3FFC % 4 = 0) := by decide

theorem test_hyps_ReadsHaveNoSideEffects :
    ¬((running 1#32).busy = true ∧ 0x2000 ≤ 0x1FFF ∧ 0x1FFF < 0x3000) ∧
    ¬((running 1#32).busy = true ∧ 0x2000 ≤ 0x3000 ∧ 0x3000 < 0x3000) ∧
    ¬(State.reset.busy = true ∧ 0x2000 ≤ 0x2000 ∧ 0x2000 < 0x3000) := by decide

/-- Both ends of the key registers and of DOUT. -/
theorem test_hyps_ConstantAndReadOnlyRegisters :
    busReg 0x0040 = .key1 0 ∧ busReg 0x005C = .key1 7 ∧ busReg 0x0060 = .key2 0 ∧ busReg 0x007C = .key2 7 ∧
    busReg 0x2000 = .dout ∧ busReg 0x2FFC = .dout := by decide

theorem test_hyps_ReservedOffsetsReadZeroIgnoreWrites :
    (ReservedOffset 0x0018 ∧ ReservedOffset 0x003C) ∧ (ReservedOffset 0x0090 ∧ ReservedOffset 0x0FFC) ∧
    ReservedOffset 0x3000 ∧ ReservedOffset 0x3FFC := by
  unfold ReservedOffset
  decide

theorem test_hyps_CmdWriteWhileBusyIsDropped : (running 1#32).busy = true := rfl
theorem test_hyps_CmdWriteIsAcceptedOrDropped : (running 1#32).busy = true ∧ State.reset.busy = false := ⟨rfl, rfl⟩

theorem test_hyps_InputWriteWhileBusyIsIgnored :
    (running 1#32).busy = true ∧ InputOffset 0x000C ∧ InputOffset 0x0010 ∧ (InputOffset 0x0040 ∧ InputOffset 0x008C) ∧
    (InputOffset 0x1000 ∧ InputOffset 0x1FFC) := by
  unfold InputOffset
  decide

theorem test_hyps_CfgAndLenReadBack : State.reset.busy = false := rfl
theorem test_hyps_KeyWriteStoresFourBytes : 0 < 8 ∧ 7 < 8 ∧ State.reset.busy = false := by decide
theorem test_hyps_TweakWriteReadsBack : 0 < 4 ∧ 3 < 4 ∧ State.reset.busy = false := by decide
theorem test_hyps_DinWriteReadsBack :
    (0x1000 ≤ 0x1000 ∧ 0x1000 ≤ 0x1FFC) ∧ (0x1000 ≤ 0x1FFC ∧ 0x1FFC ≤ 0x1FFC) ∧ State.reset.busy = false := by decide
theorem test_hyps_DoutReadWhileBusyIsFree :
    (0x2000 ≤ 0x2000 ∧ 0x2000 ≤ 0x2FFC ∧ (running 1#32).busy = true) ∧
    (0x2000 ≤ 0x2FFC ∧ 0x2FFC ≤ 0x2FFC ∧ State.reset.busy = false) := by decide

theorem test_hyps_StickyFlagsChangeOnlyAsStated :
    0x0010 % 4 = 0 ∧ 0x0004 % 4 = 0 ∧
    engineTurn (running 5#32) = .next (after (engineTurn (running 5#32)) State.reset) := ⟨rfl, rfl, rfl⟩
/-- An IDLE engine, and a RUNNING one with each code of rule R180. -/
theorem test_hyps_BusyDoneErrChangeOnlyAsStated : State.reset.busy = false ∧ (running 5#32).busy = true ∧
    completionCode (running 5#32) = .ok ∧ completionCode (running 1#32) = .invalidParam ∧
    completionCode { running 2#32 with len := 15#32 } = .unsupportedDuSize ∧
    completionCode { running 0x14#32 with k2len := 1#2 } = .primFail ∧
    completionCode (running 0x15#32) = .illegalCmd := by decide

/-- A step that changes ERR by a completion, and one that changes it by a reset. -/
theorem test_hyps_OnlyCompletionAndResetWriteErr :
    (step (running 0x15#32) = .next (after (step (running 0x15#32)) State.reset) ∧
      (after (step (running 0x15#32)) State.reset).err ≠ (running 0x15#32).err) ∧
    (step { State.reset with err := 2, turns := [.reset] } =
        .next (after (step { State.reset with err := 2, turns := [.reset] }) State.reset) ∧
      (after (step { State.reset with err := 2, turns := [.reset] }) State.reset).err ≠ 2) :=
  ⟨⟨rfl, by decide⟩, rfl, by decide⟩

/-- A host that writes CMD, and one that writes DIN, while an operation runs. -/
theorem test_hyps_HostCannotChangeARunningOperation :
    (running 1#32).busy = true ∧
    hostTurn { running 1#32 with program := .wr 0x0008 (.imm 5#32) .done } =
      .next { running 1#32 with cmdLost := true } ∧
    hostTurn { running 1#32 with program := .wr 0x1000 (.imm 5#32) .done } =
      .next { running 1#32 with wrIgn := true } := ⟨rfl, rfl, rfl⟩

theorem test_hyps_InterruptIsDoneAndEnable :
    ({ running 0x15#32 with ie := true } : State).ie = true ∧
    completionStep { running 0x15#32 with ie := true } =
      .next (after (completionStep { running 0x15#32 with ie := true }) State.reset) ∧
    (({ State.reset with done := true } : State).busy = false ∧ ({ State.reset with done := true } : State).done = true ∧
      (0x100#32).getLsbD 8 = true) := ⟨rfl, rfl, rfl, rfl, by decide⟩
theorem test_hyps_InterruptClears :
    (0x2#32).getLsbD 1 = true ∧ ({ State.reset with done := true, ie := true } : State).busy = false ∧
    (0x00F#32).getLsbD 8 = false := by decide

theorem test_hyps_ResetInputResetsTheEngine :
    ({ running 1#32 with turns := [.reset, .host] } : State).turns = .reset :: [.host] := rfl

/-- A state with the invariant and every kind of step from it. -/
theorem test_hyps_StepKeepsInvariant :
    (running 5#32).Inv ∧ step (running 5#32) = .next (after (step (running 5#32)) State.reset) ∧
    ({ State.reset with program := .wr 0x1000 (.imm 5#32) .done } : State).Inv ∧
    step { State.reset with program := .wr 0x1000 (.imm 5#32) .done } =
      .next (after (step { State.reset with program := .wr 0x1000 (.imm 5#32) .done }) State.reset) :=
  ⟨⟨by decide, by decide, by decide, rfl⟩, rfl, ⟨by decide, by decide, by decide, rfl⟩, rfl⟩
/-- The clauses' offsets at both ends of their ranges. -/
theorem test_hyps_ReadsWhileBusy : (running 5#32).Inv ∧ (running 5#32).busy = true ∧
    (0x1000 ≤ 0x1FFC ∧ 0x1FFC ≤ 0x1FFC ∧ 3 < 4) ∧ (0x0040 ≤ 0x007C ∧ 0x007C ≤ 0x007C) ∧
    ReservedOffset 0x0018 ∧ ReservedOffset 0x3FFC :=
  ⟨⟨by decide, by decide, by decide, rfl⟩, rfl, by decide, by decide, by unfold ReservedOffset; decide,
    by unfold ReservedOffset; decide⟩

/-- Each statement form at an end of the window. -/
theorem test_hyps_HostStatementsRunAsWritten :
    (0x0000 < 0x4000 ∧ 0x0000 % 4 = 0 ∧ 0x3FFC < 0x4000 ∧ 0x3FFC % 4 = 0) ∧
    ({ State.reset with program := .wr 0x3FFC (.imm 1#32) .done } : State).program = .wr 0x3FFC (.imm 1#32) .done ∧
    ({ State.reset with program := .wr 0x0080 .lastRead .done } : State).program = .wr 0x0080 .lastRead .done ∧
    ({ State.reset with program := .rd 0x0000 none .done } : State).program = .rd 0x0000 none .done ∧
    ({ State.reset with program := .rd 0x0000 (some 7#32) .done } : State).program = .rd 0x0000 (some 7#32) .done ∧
    ({ State.reset with program := .poll 0x0004 1#32 0#32 .done } : State).program = .poll 0x0004 1#32 0#32 .done ∧
    ({ State.reset with program := .rep (0 + 1) .done .done } : State).program = .rep (0 + 1) .done .done ∧
    ({ State.reset with program := .rep 0 .done .done } : State).program = .rep 0 .done .done := by decide

theorem test_hyps_MulxBits : 0 < 128 ∧ 127 < 128 := by decide
theorem test_hyps_MulxLaws : ((blockBytes 1#128).getD 15 0#8).toNat < 0x80 ∧
    ((blockBytes (BitVec.ofNat 128 (2 ^ 127 - 1))).getD 15 0#8).toNat < 0x80 := by decide +kernel
theorem test_hyps_TweaksDoNotRepeat : (1 ≤ 1 ∧ 1 < 300) ∧ (1 ≤ 299 ∧ 299 < 300) ∧ (1#128 : Block) ≠ 0#128 ∧ 0 < 299 ∧
    4096 ≤ Config.P_DU_MAX.val := by decide

end Sys2Proof.Tests
end

section
/-! Proofs for the scope rules of 00_scope.md: whose turn a step is (rule R15), and that a command's result
depends on its inputs alone (rule R16). -/

namespace Sys2Proof.Machine

/-! ### Whose turn a step is -/

theorem step_of_engine {s : State} {ts : List Turn} (h : s.turns = .engine :: ts) :
    step s = engineTurn { s with turns := ts } := by
  simp [step, h]

theorem step_of_host {s : State} {ts : List Turn} (h : s.turns = .host :: ts) :
    step s = hostTurn { s with turns := ts } := by
  simp [step, h]

theorem step_of_nil_busy {s : State} (h : s.turns = []) (hb : s.busy = true) : step s = engineTurn s := by
  simp [step, h, hb]

theorem step_of_nil_idle {s : State} (h : s.turns = []) (hb : s.busy = false) : step s = hostTurn s := by
  simp [step, h, hb]

/-- The completion step of a legal word is the command it decodes to (rule R221). -/
theorem completionStep_of_decode {s : State} {i : Instr} (h : decode s.hidCmd = .ok i) :
    completionStep s = exec i s := by
  simp [completionStep, h]

/-- The engine's turn while RUNNING a legal word (rules R42, R221). -/
theorem engineTurn_of_decode {s : State} {i : Instr} (hb : s.busy = true) (h : decode s.hidCmd = .ok i) :
    engineTurn s = exec i s :=
  (engineTurn_running hb).trans (completionStep_of_decode h)

/-- Settles O5: each clause is the equation of `step` for that schedule, followed by the engine's turn for
that phase. -/
theorem stepRunsTheDecodedCommand : Obligations.StepRunsTheDecodedCommand := by
  unfold Obligations.StepRunsTheDecodedCommand
  refine ⟨fun s i hd => ⟨fun ts hb hts => ?_, fun hb hts => ?_⟩,
    fun s => ⟨fun ts hb hts => ?_, fun ts hts => step_of_host hts, fun hb hts => step_of_nil_idle hts hb⟩⟩
  · exact (step_of_engine hts).trans (engineTurn_of_decode hb hd)
  · exact (step_of_nil_busy hts hb).trans (engineTurn_of_decode hb hd)
  · exact (step_of_engine hts).trans (engineTurn_idle hb)

/-! ### What each command does, one equation per outcome of its checks -/

/-- An XTS command that the checks reject completes with their code (rules R140, R158, R159). -/
theorem xtsCommand_of_rejected {p : BlockCipher} {dir : AesDir} {s : State}
    (h : xtsCheck s.duMax s.k1len s.k2len s.len ≠ .ok) :
    xtsCommand p dir s = finishErr (xtsCheck s.duMax s.k1len s.k2len s.len) s := by
  rcases xtsCommand_cases p dir s with ⟨e, -, hc, hx⟩ | ⟨hc, -⟩
  · rw [hx, hc]
  · exact absurd hc h

/-- An XTS command that the checks accept writes its data path's output (rules R158, R159). -/
theorem xtsCommand_of_accepted {p : BlockCipher} {dir : AesDir} {s : State}
    (h : xtsCheck s.duMax s.k1len s.k2len s.len = .ok) :
    xtsCommand p dir s =
      finishOk (xtsTransform p dir (aesKey s.key1 s.k1len) (initialTweak p s) (dinBytes s s.len.toNat)) 0 s := by
  rcases xtsCommand_cases p dir s with ⟨e, he, hc, -⟩ | ⟨-, hx⟩
  · exact absurd (hc.symm.trans h) he
  · exact hx

/-- An AES command under length code 3 (rules R124, R125). -/
theorem aesCommand_of_code_three {p : BlockCipher} {dir : AesDir} {k : Bool} {s : State}
    (h : (selectedKey k s).2 = 3#2) : aesCommand p dir k s = finishErr .invalidParam s := by
  simp [aesCommand, h]

/-- An AES command under length code 1 (rules R121, R123). -/
theorem aesCommand_of_code_one {p : BlockCipher} {dir : AesDir} {k : Bool} {s : State}
    (h : (selectedKey k s).2 = 1#2) : aesCommand p dir k s = finishErr .primFail s := by
  simp [aesCommand, aesw, h]

/-- An AES command under a length code that has a key (rules R121, R124, R125). -/
theorem aesCommand_of_code_legal {p : BlockCipher} {dir : AesDir} {k : Bool} {s : State}
    (h : (selectedKey k s).2 = 0#2 ∨ (selectedKey k s).2 = 2#2) :
    aesCommand p dir k s =
      finishOk (blockBytes (blockFunction p dir (aesKey (selectedKey k s).1 (selectedKey k s).2) (dinBlock s))) 0 s := by
  rcases h with h | h <;> simp [aesCommand, aesw, h]

/-! ### The operands in states with the same inputs -/

section Operands
variable {s u : State} (h : SameInputs s u)
include h

theorem SameInputs.dinBytes_eq {n : Nat} (hn : n ≤ bufferSize) : dinBytes u n = dinBytes s n := by
  apply List.ext_getElem (by simp)
  intro k hk _
  have hk' : k < n := by simpa using hk
  simp only [dinBytes, readBytes_getElem]
  exact h.din (DIN + k) (by omega) (by omega)

theorem SameInputs.dinBlock_eq : dinBlock u = dinBlock s := by
  unfold dinBlock
  rw [h.dinBytes_eq (by decide)]

theorem SameInputs.tweakBlock_eq : tweakBlock u = tweakBlock s := by
  unfold tweakBlock
  rw [h.tweak]

theorem SameInputs.initialTweak_eq (p : BlockCipher) : initialTweak p u = initialTweak p s := by
  unfold initialTweak
  rw [h.key2, h.k2len, h.tweakBlock_eq]

theorem SameInputs.selectedKey_eq (k : Bool) : selectedKey k u = selectedKey k s := by
  unfold selectedKey
  rw [h.key1, h.k1len, h.key2, h.k2len]

theorem SameInputs.xtsCheck_eq :
    xtsCheck u.duMax u.k1len u.k2len u.len = xtsCheck s.duMax s.k1len s.k2len s.len := by
  rw [h.duMax, h.k1len, h.k2len, h.len]

end Operands

/-! ### Completions with one result -/

/-- `t` completes `s` and `v` completes `u` with one result: the same error code, or OK and the same output. -/
inductive CompleteAlike (s u : State) : State → State → Prop
  | err (e : ErrCode) : CompleteAlike s u (finishErr e s) (finishErr e u)
  | ok (S : List Byte) : CompleteAlike s u (finishOk S 0 s) (finishOk S 0 u)

theorem CompleteAlike.err_eq {s u t v : State} (h : CompleteAlike s u t v) : v.err = t.err := by
  cases h with
  | err e => rfl
  | ok S => rfl

/-- A byte that was the same before two completions with one result is the same after them: either both
wrote it, from one output, or neither did. -/
theorem CompleteAlike.readByte_eq {s u t v : State} (h : CompleteAlike s u t v) {a : Nat}
    (ha : readByte u a = readByte s a) : readByte v a = readByte t a := by
  cases h with
  | err e => simpa using ha
  | ok S =>
    by_cases hin : DOUT ≤ a ∧ a < DOUT + S.length
    · obtain ⟨k, rfl⟩ := Nat.exists_eq_add_of_le hin.1
      have hk : k < S.length := by omega
      exact (readByte_finishOk S 0 u k hk).trans (readByte_finishOk S 0 s k hk).symm
    · have hout : a < DOUT + 0 ∨ DOUT + 0 + S.length ≤ a := by omega
      rw [readByte_finishOk_frame S 0 u hout, readByte_finishOk_frame S 0 s hout, ha]

theorem xtsCommand_alike {s u : State} (h : SameInputs s u) (p : BlockCipher) (dir : AesDir) :
    CompleteAlike s u (xtsCommand p dir s) (xtsCommand p dir u) := by
  by_cases hs : xtsCheck s.duMax s.k1len s.k2len s.len = .ok
  · have hlen : s.len.toNat ≤ bufferSize := by
      obtain ⟨-, -, -, hhi⟩ := (xtsCheck_ok_iff _ _ _ _).mp hs
      exact hhi.trans s.duMax.property.2
    rw [xtsCommand_of_accepted hs, xtsCommand_of_accepted (h.xtsCheck_eq.trans hs), h.key1, h.k1len,
      h.initialTweak_eq p, h.len, h.dinBytes_eq hlen]
    exact .ok _
  · rw [xtsCommand_of_rejected hs, xtsCommand_of_rejected (h.xtsCheck_eq.trans_ne hs), h.xtsCheck_eq]
    exact .err _

theorem aesCommand_alike {s u : State} (h : SameInputs s u) (p : BlockCipher) (dir : AesDir) (k : Bool) :
    CompleteAlike s u (aesCommand p dir k s) (aesCommand p dir k u) := by
  have hk := h.selectedKey_eq k
  rcases aesCommand_cases p dir k s with ⟨hc, hs⟩ | ⟨hc, hs⟩ | ⟨hc, hs⟩
  · rw [hs, aesCommand_of_code_three (hk ▸ hc)]
    exact .err _
  · rw [hs, aesCommand_of_code_one (hk ▸ hc)]
    exact .err _
  · rw [hs, aesCommand_of_code_legal (hk ▸ hc), hk, h.dinBlock_eq]
    exact .ok _

/-- The result of every command is a function of its inputs (rule R16). -/
theorem exec_alike {s u : State} (h : SameInputs s u) (i : Instr) :
    ∃ t v, exec i s = .next t ∧ exec i u = .next v ∧ CompleteAlike s u t v := by
  cases i with
  | xtsEnc => exact ⟨_, _, rfl, rfl, xtsCommand_alike h aesPrimitive .enc⟩
  | xtsDec => exact ⟨_, _, rfl, rfl, xtsCommand_alike h aesPrimitive .dec⟩
  | aesEncK1 => exact ⟨_, _, rfl, rfl, aesCommand_alike h aesPrimitive .enc false⟩
  | aesEncK2 => exact ⟨_, _, rfl, rfl, aesCommand_alike h aesPrimitive .enc true⟩
  | aesDecK1 => exact ⟨_, _, rfl, rfl, aesCommand_alike h aesPrimitive .dec false⟩
  | aesDecK2 => exact ⟨_, _, rfl, rfl, aesCommand_alike h aesPrimitive .dec true⟩
  | gfMulx => exact ⟨_, _, rfl, rfl, h.tweakBlock_eq ▸ .ok _⟩

/-- Settles O23: the two completions have one result, so ERR is the same, and each byte of DOUT is either
written from one output or was the same before. -/
theorem operationsAreIndependent : Obligations.OperationsAreIndependent := by
  unfold Obligations.OperationsAreIndependent
  intro i s u hin hdout
  obtain ⟨t, v, ht, hv, halike⟩ := exec_alike hin i
  exact ⟨t, v, ht, hv, halike.err_eq, fun a hlo hhi => halike.readByte_eq (hdout a hlo hhi)⟩

end Sys2Proof.Machine
end

section
/-! Proofs for the state, part 1: what a step can do, said once for each agent, and what every step keeps (rules
R25, R28, R45 to R47, R180, R183). -/

namespace Sys2Proof.Machine

/-! ### What a completion and an engine turn can do -/

/-- A completion ends in one of the two finishes (rule R183). -/
theorem completionStep_next {s t : State} (h : completionStep s = .next t) :
    (∃ e, e ≠ .ok ∧ t = finishErr e s) ∨ (∃ S, S.length ≤ bufferSize ∧ t = finishOk S 0 s) := by
  rcases completionStep_finishes s with ⟨e, he, hs⟩ | ⟨S, hS, hs⟩
  · exact .inl ⟨e, he, Host.Outcome.next.inj (h.symm.trans hs)⟩
  · exact .inr ⟨S, hS, Host.Outcome.next.inj (h.symm.trans hs)⟩

/-- A completion in the terms of Safety.lean: its code, and how much of DOUT it wrote. -/
theorem completionStep_completed {s t : State} (h : completionStep s = .next t) :
    ∃ e n, n ≤ bufferSize ∧ (e ≠ .ok → n = 0) ∧ Completed e n s t := by
  rcases completionStep_next h with ⟨e, -, rfl⟩ | ⟨S, hS, rfl⟩
  · exact ⟨e, 0, Nat.zero_le _, fun _ => rfl, completed_finishErr e s⟩
  · exact ⟨.ok, S.length, hS, fun hne => absurd rfl hne, completed_finishOk S s⟩

/-- The engine's turn does nothing while IDLE and completes while RUNNING (rule R42). -/
theorem engineTurn_next {s t : State} (h : engineTurn s = .next t) :
    (s.busy = false ∧ t = s) ∨ (s.busy = true ∧ completionStep s = .next t) := by
  cases hb : s.busy with
  | false => exact .inl ⟨rfl, Host.Outcome.next.inj (h.symm.trans (engineTurn_idle hb))⟩
  | true => exact .inr ⟨rfl, (engineTurn_running hb).symm.trans h⟩

theorem SameInputs.refl (s : State) : SameInputs s s :=
  ⟨rfl, rfl, rfl, rfl, rfl, rfl, rfl, rfl, fun _ _ _ => rfl⟩

theorem SameHost.refl (s : State) : SameHost s s := ⟨rfl, rfl, rfl, rfl, rfl, rfl⟩

/-- Settles O27: an IDLE engine changes nothing, and a completion has the frame of `Completed`. -/
theorem engineWritesOnlyStatusAndOutput : Obligations.EngineWritesOnlyStatusAndOutput := by
  unfold Obligations.EngineWritesOnlyStatusAndOutput
  intro s t h
  rcases engineTurn_next h with ⟨-, rfl⟩ | ⟨-, hc⟩
  · exact ⟨.refl t, rfl, rfl, .refl t, fun _ _ => rfl⟩
  · obtain ⟨e, n, hn, -, hcomp⟩ := completionStep_completed hc
    exact ⟨hcomp.inputs, hcomp.cmdLost, hcomp.wrIgn, hcomp.host, fun a ha => hcomp.memory a (by omega)⟩

/-- Settles O28: either finish zeroes the scratch. -/
theorem scratchIsZeroedAtCompletion : Obligations.ScratchIsZeroedAtCompletion := by
  unfold Obligations.ScratchIsZeroedAtCompletion
  intro s t h
  obtain ⟨e, n, -, -, hcomp⟩ := completionStep_completed h
  exact hcomp.scratch

/-! ### What a host write can do -/

/-- What the register map's names have in common as targets of a write (rules R27, R29, R30, R40, R41, R222). -/
inductive WriteKind where
  | status
  | command
  | input
  | ignored

/-- The kind of each name of the register map. -/
def BusReg.writeKind : BusReg → WriteKind
  | .status => .status
  | .cmd => .command
  | .cfg | .len | .key1 _ | .key2 _ | .tweak _ | .din => .input
  | .id | .dumax | .dout | .reserved => .ignored

theorem writeKind_eq_status_iff {off : Nat} : (busReg off).writeKind = .status ↔ off = 0x0004 := by
  rw [show off = 0x0004 ↔ _ from (busReg_eq_iff off .status).symm]
  cases busReg off <;> simp [BusReg.writeKind]

theorem writeKind_eq_command_iff {off : Nat} : (busReg off).writeKind = .command ↔ off = 0x0008 := by
  rw [show off = 0x0008 ↔ _ from (busReg_eq_iff off .cmd).symm]
  cases busReg off <;> simp [BusReg.writeKind]

theorem writeKind_eq_input_iff {off : Nat} (h : off % 4 = 0) : (busReg off).writeKind = .input ↔ InputOffset off := by
  rw [inputOffset_iff h]
  cases busReg off <;> simp [BusReg.writeKind]

/-- An input write, with its two cases in one: the store happens while BUSY = 0 only, and WR_IGN is raised while
BUSY = 1 only (rules R27, R222). -/
theorem writeInput_eq {store : State → State} {s : State}
    (h : ∃ c1 c2 e n k1 k2 tw m, store s =
      { s with k1len := c1, k2len := c2, ie := e, len := n, key1 := k1, key2 := k2, tweak := tw, mem := m }) :
    ∃ c1 c2 e n k1 k2 tw m, writeInput store s =
      { s with k1len := c1, k2len := c2, ie := e, len := n, key1 := k1, key2 := k2, tweak := tw, mem := m,
               wrIgn := s.wrIgn || s.busy } := by
  obtain ⟨c1, c2, e, n, k1, k2, tw, m, hs⟩ := h
  rcases writeInput_cases store s with ⟨hb, hi⟩ | ⟨hb, hi⟩
  · exact ⟨s.k1len, s.k2len, s.ie, s.len, s.key1, s.key2, s.tweak, s.mem, by simp [hi, hb, setWrIgn]⟩
  · exact ⟨c1, c2, e, n, k1, k2, tw, m, by simp [hi, hs, hb]⟩

/-- What a host write does, by the kind of its offset (rules R27, R29, R30, R40, R41, R222). -/
theorem busWrite_kinds (off : Nat) (v : Word) (s : State) :
    ((busReg off).writeKind = .status ∧ busWrite off v s = writeStatus v s) ∨
    ((busReg off).writeKind = .command ∧ busWrite off v s = writeCmd v s) ∨
    ((busReg off).writeKind = .input ∧ ∃ c1 c2 e n k1 k2 tw m, busWrite off v s =
      { s with k1len := c1, k2len := c2, ie := e, len := n, key1 := k1, key2 := k2, tweak := tw, mem := m,
               wrIgn := s.wrIgn || s.busy }) ∨
    ((busReg off).writeKind = .ignored ∧ busWrite off v s = s) := by
  unfold busWrite
  cases busReg off with
  | status => exact .inl ⟨rfl, rfl⟩
  | cmd => exact .inr (.inl ⟨rfl, rfl⟩)
  | id | dumax | dout | reserved => exact .inr (.inr (.inr ⟨rfl, rfl⟩))
  | cfg | len | key1 j | key2 j | tweak j | din =>
    exact .inr (.inr (.inl ⟨rfl, writeInput_eq ⟨_, _, _, _, _, _, _, _, rfl⟩⟩))

@[simp] theorem writeCmd_busy (v : Word) (s : State) : (writeCmd v s).busy = true := by
  rcases writeCmd_cases v s with ⟨hb, h⟩ | ⟨-, h⟩ <;> simp [*]

@[simp] theorem writeCmd_done (v : Word) (s : State) : (writeCmd v s).done = (s.done && s.busy) := by
  rcases writeCmd_cases v s with ⟨hb, h⟩ | ⟨hb, h⟩ <;> simp [*]

@[simp] theorem writeCmd_cmdLost (v : Word) (s : State) : (writeCmd v s).cmdLost = (s.cmdLost || s.busy) := by
  rcases writeCmd_cases v s with ⟨hb, h⟩ | ⟨hb, h⟩ <;> simp [*]

@[simp] theorem writeCmd_wrIgn (v : Word) (s : State) : (writeCmd v s).wrIgn = s.wrIgn := by
  rcases writeCmd_cases v s with ⟨-, h⟩ | ⟨-, h⟩ <;> simp [h]

@[simp] theorem writeCmd_err (v : Word) (s : State) : (writeCmd v s).err = s.err := by
  rcases writeCmd_cases v s with ⟨-, h⟩ | ⟨-, h⟩ <;> simp [h]

@[simp] theorem writeCmd_scratch (v : Word) (s : State) : (writeCmd v s).scratch = s.scratch := by
  rcases writeCmd_cases v s with ⟨-, h⟩ | ⟨-, h⟩ <;> simp [h]

@[simp] theorem writeCmd_duMax (v : Word) (s : State) : (writeCmd v s).duMax = s.duMax := by
  rcases writeCmd_cases v s with ⟨-, h⟩ | ⟨-, h⟩ <;> simp [h]

/-- What no host write changes: ERR, the hidden scratch and `P_DU_MAX` (rules R7, R28, R44). -/
theorem busWrite_frame (off : Nat) (v : Word) (s : State) :
    (busWrite off v s).err = s.err ∧ (busWrite off v s).scratch = s.scratch ∧
      (busWrite off v s).duMax = s.duMax := by
  rcases busWrite_kinds off v s with ⟨-, h⟩ | ⟨-, h⟩ | ⟨-, c1, c2, e, n, k1, k2, tw, m, h⟩ | ⟨-, h⟩ <;> simp [h]

/-- A host write raises BUSY at CMD only, and never lowers it (rules R24, R30). -/
theorem busWrite_busy_iff (off : Nat) (v : Word) (s : State) :
    (busWrite off v s).busy = true ↔ s.busy = true ∨ off = 0x0008 := by
  rw [← writeKind_eq_command_iff]
  rcases busWrite_kinds off v s with ⟨hk, h⟩ | ⟨hk, h⟩ | ⟨hk, c1, c2, e, n, k1, k2, tw, m, h⟩ | ⟨hk, h⟩ <;>
    simp [hk, h]

/-- A host write lowers DONE by bit 1 of a STATUS write or by acceptance only, and never raises it (rules R25,
R29, R30). -/
theorem busWrite_done_iff (off : Nat) (v : Word) (s : State) :
    (busWrite off v s).done = true ↔
      s.done = true ∧ ¬(off = 0x0004 ∧ v.getLsbD 1 = true) ∧ ¬(off = 0x0008 ∧ s.busy = false) := by
  rw [← writeKind_eq_status_iff, ← writeKind_eq_command_iff]
  rcases busWrite_kinds off v s with ⟨hk, h⟩ | ⟨hk, h⟩ | ⟨hk, c1, c2, e, n, k1, k2, tw, m, h⟩ | ⟨hk, h⟩ <;>
    simp [hk, h]

/-- A host write clears CMD_LOST by bit 2 of a STATUS write only, and raises it by a CMD write while BUSY = 1 only
(rules R26, R29). -/
theorem busWrite_cmdLost_iff (off : Nat) (v : Word) (s : State) :
    (busWrite off v s).cmdLost = true ↔
      (s.cmdLost = true ∧ ¬(off = 0x0004 ∧ v.getLsbD 2 = true)) ∨ (off = 0x0008 ∧ s.busy = true) := by
  rw [← writeKind_eq_status_iff, ← writeKind_eq_command_iff]
  rcases busWrite_kinds off v s with ⟨hk, h⟩ | ⟨hk, h⟩ | ⟨hk, c1, c2, e, n, k1, k2, tw, m, h⟩ | ⟨hk, h⟩ <;>
    simp [hk, h]

/-- A host write clears WR_IGN by bit 3 of a STATUS write only, and raises it by a write to an input while BUSY = 1
only (rules R27, R29). -/
theorem busWrite_wrIgn_iff {off : Nat} (hoff : off % 4 = 0) (v : Word) (s : State) :
    (busWrite off v s).wrIgn = true ↔
      (s.wrIgn = true ∧ ¬(off = 0x0004 ∧ v.getLsbD 3 = true)) ∨ (InputOffset off ∧ s.busy = true) := by
  rw [← writeKind_eq_status_iff, ← writeKind_eq_input_iff hoff]
  rcases busWrite_kinds off v s with ⟨hk, h⟩ | ⟨hk, h⟩ | ⟨hk, c1, c2, e, n, k1, k2, tw, m, h⟩ | ⟨hk, h⟩ <;>
    simp [hk, h]

/-- The memory after a host write: only DIN is ever stored to (rules R39, R40). -/
theorem busWrite_mem (off : Nat) (v : Word) (s : State) :
    (busWrite off v s).mem = s.mem ∨
      (busReg off = .din ∧ (busWrite off v s).mem = s.mem.writeBytes off (wordBytes v)) := by
  rcases busWrite_cases off v s with h | ⟨-, h⟩ | ⟨-, -, h⟩ | ⟨-, -, h⟩ | ⟨-, h⟩ |
    ⟨-, ⟨-, h⟩ | ⟨-, h⟩ | ⟨j, -, h⟩ | ⟨j, -, h⟩ | ⟨j, -, h⟩ | ⟨hdin, h⟩⟩ <;> simp [*]

/-! ### What a host turn can do -/

/-- A host turn either leaves the engine alone or is one write: the host's own fields are its place in the
program, its last word, its record, and the count of free values it was given. -/
theorem hostTurn_idle_or_write {s t : State} (h : hostTurn s = .next t) :
    (∃ p l m n, t = { s with program := p, lastRead := l, rdMismatch := m, busyDoutReads := n }) ∨
    (∃ p off v, t = busWrite off v { s with program := p }) := by
  obtain ⟨p, b, rfl | ⟨off, u, hu, rfl⟩ | ⟨off, q, u, hu, rfl⟩ | ⟨off, v, rfl⟩⟩ := hostTurn_next h
  · exact .inl ⟨p, _, _, _, rfl⟩
  · obtain ⟨n, hn⟩ := busRead_eq off { s with program := p }
    exact .inl ⟨p, _, b, n, by rw [hu, hn]⟩
  · obtain ⟨n, hn⟩ := busRead_eq off s
    exact .inl ⟨q, _, s.rdMismatch, n, by rw [hu, hn]⟩
  · exact .inr ⟨p, off, v, rfl⟩

/-- A host write while BUSY = 1 changes no more than DONE, CMD_LOST and WR_IGN (rules R29, R222, R223). -/
theorem busWrite_while_busy {s : State} (hb : s.busy = true) (off : Nat) (v : Word) :
    ∃ d c w, busWrite off v s = { s with done := d, cmdLost := c, wrIgn := w } := by
  rcases busWrite_cases off v s with h | ⟨-, h⟩ | ⟨-, -, h⟩ | ⟨-, hf, -⟩ | ⟨-, h⟩ | ⟨hf, -⟩
  · exact ⟨_, _, _, h⟩
  · exact ⟨_, _, _, h⟩
  · exact ⟨_, _, _, h⟩
  · exact absurd (hb.symm.trans hf) (by decide)
  · exact ⟨_, _, _, h⟩
  · exact absurd (hb.symm.trans hf) (by decide)

/-- DONE, the sticky flags and the host's fields are no inputs (rule R46). -/
theorem sameInputs_of_flags_and_host (s : State) (d c w : Bool) (p : HostProgram) (l : Word) (m : Bool) (n : Nat) :
    SameInputs s { s with done := d, cmdLost := c, wrIgn := w, program := p, lastRead := l, rdMismatch := m,
                          busyDoutReads := n } :=
  ⟨rfl, rfl, rfl, rfl, rfl, rfl, rfl, rfl, fun _ _ _ => rfl⟩

/-- Settles O47: the host's own fields are no part of the operation, and a write while BUSY = 1 reaches only the
three flags. -/
theorem hostCannotChangeARunningOperation : Obligations.HostCannotChangeARunningOperation := by
  unfold Obligations.HostCannotChangeARunningOperation
  intro s t hb h
  rcases hostTurn_idle_or_write h with ⟨p, l, m, n, rfl⟩ | ⟨p, off, v, rfl⟩
  · exact ⟨sameInputs_of_flags_and_host .., hb, rfl, fun _ => rfl⟩
  · obtain ⟨d, c, w, hw⟩ := busWrite_while_busy (s := { s with program := p }) hb off v
    rw [hw]
    exact ⟨sameInputs_of_flags_and_host .., hb, rfl, fun _ => rfl⟩

theorem hostTurn_err {s t : State} (h : hostTurn s = .next t) : t.err = s.err := by
  rcases hostTurn_idle_or_write h with ⟨p, l, m, n, rfl⟩ | ⟨p, off, v, rfl⟩
  · rfl
  · obtain ⟨herr, -⟩ := busWrite_frame off v { s with program := p }
    exact herr

/-- An engine turn that changes ERR completes an operation. -/
theorem engineTurn_err_ne {s t : State} (h : engineTurn s = .next t) (hne : t.err ≠ s.err) :
    s.busy = true ∧ t.busy = false := by
  rcases engineTurn_next h with ⟨-, rfl⟩ | ⟨hb, hc⟩
  · exact absurd rfl hne
  · obtain ⟨e, n, -, -, hcomp⟩ := completionStep_completed hc
    exact ⟨hb, hcomp.busy⟩

/-- Settles O46, by whose step it is. -/
theorem onlyCompletionAndResetWriteErr : Obligations.OnlyCompletionAndResetWriteErr := by
  unfold Obligations.OnlyCompletionAndResetWriteErr
  intro s t h hne
  rcases step_cases s with ⟨ts, -, hs⟩ | ⟨ts, hts, hs⟩ | ⟨ts, hts, hs⟩ | ⟨hts, -, hs⟩ | ⟨-, -, hs⟩ <;>
    rw [hs] at h
  · exact absurd (hostTurn_err h) hne
  · obtain ⟨hb, ht⟩ := engineTurn_err_ne h hne
    exact .inr ⟨hb, ht, .inr ⟨ts, hts⟩⟩
  · exact .inl ⟨ts, hts⟩
  · obtain ⟨hb, ht⟩ := engineTurn_err_ne h hne
    exact .inr ⟨hb, ht, .inl hts⟩
  · exact absurd (hostTurn_err h) hne

/-! ### The invariant -/

/-- Settles O53. -/
theorem resetHasInvariant : Obligations.ResetHasInvariant where
  memory := reset_memory_wf
  phase := by decide
  err := by decide
  scratch := rfl

theorem resetInput_inv (s : State) : (resetInput s).Inv where
  memory := reset_memory_wf
  phase := by simp
  err := by simp
  scratch := rfl

/-- A completion needs of the state before it only that the memory is in canonical form. -/
theorem completionStep_inv {s t : State} (hm : s.mem.wf = true) (h : completionStep s = .next t) : t.Inv := by
  rcases completionStep_next h with ⟨e, -, rfl⟩ | ⟨S, hS, rfl⟩
  · exact ⟨hm, by simp, code_le_four e, rfl⟩
  · refine ⟨Memory.writeBytes_wf hm (by decide) ?_, by simp, code_le_four .ok, rfl⟩
    omega

theorem engineTurn_inv {s t : State} (hs : s.Inv) (h : engineTurn s = .next t) : t.Inv := by
  rcases engineTurn_next h with ⟨-, rfl⟩ | ⟨-, hc⟩
  · exact hs
  · exact completionStep_inv hs.memory hc

theorem busWrite_mem_wf {s : State} (hm : s.mem.wf = true) (off : Nat) (v : Word) :
    (busWrite off v s).mem.wf = true := by
  rcases busWrite_mem off v s with h | ⟨hdin, h⟩ <;> rw [h]
  · exact hm
  · obtain ⟨hlo, hhi⟩ := busReg_din hdin
    refine Memory.writeBytes_wf hm hlo ?_
    simp only [wordBytes_length, DIN, DOUT, bufferSize] at *
    omega

/-- A host write never makes BUSY and DONE hold together: DONE was 1 before, so only acceptance can have raised
BUSY, and acceptance drops DONE (rules R25, R30). -/
theorem busWrite_phase {s : State} (hp : ¬(s.busy = true ∧ s.done = true)) (off : Nat) (v : Word) :
    ¬((busWrite off v s).busy = true ∧ (busWrite off v s).done = true) := by
  rw [busWrite_busy_iff, busWrite_done_iff]
  rintro ⟨hb | hoff, hd, -, hacc⟩
  · exact hp ⟨hb, hd⟩
  · exact hp ⟨Bool.eq_true_of_not_eq_false fun hb => hacc ⟨hoff, hb⟩, hd⟩

theorem busWrite_inv {s : State} (hs : s.Inv) (off : Nat) (v : Word) : (busWrite off v s).Inv := by
  obtain ⟨herr, hscratch, -⟩ := busWrite_frame off v s
  exact ⟨busWrite_mem_wf hs.memory off v, busWrite_phase hs.phase off v, herr ▸ hs.err, hscratch.trans hs.scratch⟩

/-- The invariant says nothing of the host and the schedule. -/
theorem State.Inv.of_engine {s : State} (hs : s.Inv) (p : HostProgram) (l : Word) (m : Bool) (ts : List Turn) (n : Nat) :
    ({ s with program := p, lastRead := l, rdMismatch := m, turns := ts, busyDoutReads := n } : State).Inv :=
  ⟨hs.memory, hs.phase, hs.err, hs.scratch⟩

theorem hostTurn_inv {s t : State} (hs : s.Inv) (h : hostTurn s = .next t) : t.Inv := by
  rcases hostTurn_idle_or_write h with ⟨p, l, m, n, rfl⟩ | ⟨p, off, v, rfl⟩
  · exact hs.of_engine p l m s.turns n
  · exact busWrite_inv (hs.of_engine p s.lastRead s.rdMismatch s.turns s.busyDoutReads) off v

theorem hostTurn_duMax {s t : State} (h : hostTurn s = .next t) : t.duMax = s.duMax := by
  rcases hostTurn_idle_or_write h with ⟨p, l, m, n, rfl⟩ | ⟨p, off, v, rfl⟩
  · rfl
  · obtain ⟨-, -, hdu⟩ := busWrite_frame off v { s with program := p }
    exact hdu

theorem engineTurn_duMax {s t : State} (h : engineTurn s = .next t) : t.duMax = s.duMax := by
  obtain ⟨hin, -⟩ := engineWritesOnlyStatusAndOutput s t h
  exact hin.duMax

/-- Settles O52, by whose step it is. -/
theorem stepKeepsInvariant : Obligations.StepKeepsInvariant := by
  unfold Obligations.StepKeepsInvariant
  intro s t hs h
  have hts : ∀ ts, ({ s with turns := ts } : State).Inv := fun ts =>
    hs.of_engine s.program s.lastRead s.rdMismatch ts s.busyDoutReads
  rcases step_cases s with ⟨ts, -, he⟩ | ⟨ts, -, he⟩ | ⟨ts, -, he⟩ | ⟨-, -, he⟩ | ⟨-, -, he⟩ <;> rw [he] at h
  · exact ⟨hostTurn_inv (hts ts) h, hostTurn_duMax (s := { s with turns := ts }) h⟩
  · exact ⟨engineTurn_inv (hts ts) h, engineTurn_duMax (s := { s with turns := ts }) h⟩
  · cases h
    exact ⟨resetInput_inv _, rfl⟩
  · exact ⟨engineTurn_inv hs h, engineTurn_duMax h⟩
  · exact ⟨hostTurn_inv hs h, hostTurn_duMax h⟩

end Sys2Proof.Machine
end

section
/-! Proofs for the state, part 2: what each register and buffer returns to a host read and takes from a host write
(rules R22 to R41, R48, R64). -/

namespace Sys2Proof.Machine

/-! ### Registers that are constant or read-only, and reserved offsets -/

theorem busReadValue_status (s : State) : busReadValue 0x0004 s = statusWord s := rfl
theorem busReadValue_cfg (s : State) : busReadValue 0x000C s = cfgWord s := rfl
theorem busReadValue_cmd (s : State) : busReadValue 0x0008 s = 0#32 := rfl
theorem busReadValue_len (s : State) : busReadValue 0x0010 s = s.len := rfl
theorem busWrite_status (v : Word) (s : State) : busWrite 0x0004 v s = writeStatus v s := rfl
theorem busWrite_cmd (v : Word) (s : State) : busWrite 0x0008 v s = writeCmd v s := rfl
theorem busWrite_cfg (v : Word) (s : State) : busWrite 0x000C v s = writeInput (writeCfg v) s := rfl
theorem busWrite_len (v : Word) (s : State) :
    busWrite 0x0010 v s = writeInput (fun s => { s with len := v }) s := rfl

/-- The offsets of the two key files name key registers (rules R21, R34, R35). -/
theorem busReg_of_keyOffset {off : Nat} (hlo : 0x0040 ≤ off) (hhi : off ≤ 0x007C) :
    ∃ j, busReg off = .key1 j ∨ busReg off = .key2 j := by
  by_cases h : off < 0x0060
  · exact ⟨⟨(off - 0x0040) / 4, by omega⟩, .inl ((busReg_eq_iff off _).mpr ⟨rfl, hlo⟩)⟩
  · exact ⟨⟨(off - 0x0060) / 4, by omega⟩, .inr ((busReg_eq_iff off _).mpr ⟨rfl, by omega⟩)⟩

/-- A key register reads 0 (rules R34, R35). -/
theorem busReadValue_of_keyOffset {off : Nat} (hlo : 0x0040 ≤ off) (hhi : off ≤ 0x007C) (s : State) :
    busReadValue off s = 0#32 := by
  obtain ⟨j, h | h⟩ := busReg_of_keyOffset hlo hhi <;> simp [busReadValue, h]

/-- The offsets of DOUT (rule R21). -/
theorem busReg_of_doutOffset {off : Nat} (hlo : 0x2000 ≤ off) (hhi : off ≤ 0x2FFC) : busReg off = .dout :=
  (busReg_eq_iff off .dout).mpr (show off / 0x1000 = 2 by omega)

/-- Settles O32: the constant words by the register map, and the read-only offsets as those that ignore writes. -/
theorem constantAndReadOnlyRegisters : Obligations.ConstantAndReadOnlyRegisters := by
  unfold Obligations.ConstantAndReadOnlyRegisters
  intro s v
  refine ⟨rfl, rfl, busReadValue_cmd s, fun off hlo hhi => busReadValue_of_keyOffset hlo hhi s, rfl, rfl,
    fun off hlo hhi => ?_⟩
  simp [busWrite, busReg_of_doutOffset hlo hhi]

/-- Settles O33: a reserved offset names nothing in the register map. -/
theorem reservedOffsetsReadZeroIgnoreWrites : Obligations.ReservedOffsetsReadZeroIgnoreWrites := by
  unfold Obligations.ReservedOffsetsReadZeroIgnoreWrites
  intro off s v h
  have hr := busReg_of_reservedOffset h
  exact ⟨by simp [busReadValue, hr], by simp [busWrite, hr]⟩

/-! ### STATUS, CMD, CFG and LEN -/

/-- STATUS bit by bit (rule R23). -/
theorem statusWord_getLsbD (s : State) (i : Nat) :
    (statusWord s).getLsbD i =
      if i = 0 then s.busy else if i = 1 then s.done else if i = 2 then s.cmdLost else if i = 3 then s.wrIgn
      else s.err.getLsbD (i - 4) := by
  change BitVec.getLsbD (w := 24 + 4 + 1 + 1 + 1 + 1) _ i = _
  simp only [statusWord, BitVec.getLsbD_append, BitVec.getLsbD_ofBool, BitVec.getLsbD_zero]
  split_ifs <;> grind

/-- From bit 4 on, STATUS holds ERR, then zeros (rule R23). -/
theorem statusWord_getLsbD_four_add (s : State) (i : Nat) : (statusWord s).getLsbD (4 + i) = s.err.getLsbD i := by
  rw [statusWord_getLsbD, if_neg (by omega), if_neg (by omega), if_neg (by omega), if_neg (by omega),
    Nat.add_sub_cancel_left]

/-- Settles O34: each bit of STATUS is a bit of one field. -/
theorem statusWordLayout : Obligations.StatusWordLayout := by
  unfold Obligations.StatusWordLayout
  intro s
  rw [busReadValue_status]
  refine ⟨statusWord_getLsbD s 0, statusWord_getLsbD s 1, statusWord_getLsbD s 2, statusWord_getLsbD s 3, ?_, ?_⟩ <;>
    apply BitVec.eq_of_getLsbD_eq <;> intro i hi
  · rw [BitVec.getLsbD_extractLsb', statusWord_getLsbD_four_add, decide_eq_true hi, Bool.true_and]
  · rw [BitVec.getLsbD_extractLsb', show 8 + i = 4 + (4 + i) by omega, statusWord_getLsbD_four_add,
      BitVec.getLsbD_of_ge _ _ (by omega), Bool.and_false, BitVec.getLsbD_zero]

/-- Settles O35: each flag by its bit, the rest untouched. -/
theorem statusWriteClearsFlags : Obligations.StatusWriteClearsFlags := by
  unfold Obligations.StatusWriteClearsFlags
  intro v s
  rw [busWrite_status]
  have hclear : ∀ flag bit : Bool, (flag && !bit) = if bit then false else flag := by decide
  exact ⟨hclear _ _, hclear _ _, hclear _ _,
    ⟨⟨rfl, rfl, rfl, rfl, rfl, rfl, rfl, rfl, fun _ _ _ => rfl⟩, rfl, rfl, rfl, rfl, rfl, rfl, rfl, fun _ => rfl⟩,
    ⟨rfl, rfl, rfl, rfl, rfl, rfl⟩,
    ⟨⟨rfl, rfl, rfl, rfl, rfl, rfl, rfl, rfl, fun _ _ _ => rfl⟩, rfl, rfl, rfl, rfl, rfl, rfl, rfl, fun _ => rfl⟩⟩

/-- Settles O37, by the two cases of a CMD write. -/
theorem cmdWriteIsAcceptedOrDropped : Obligations.CmdWriteIsAcceptedOrDropped := by
  unfold Obligations.CmdWriteIsAcceptedOrDropped
  intro v s
  refine ⟨busReadValue_cmd s, fun hb => ?_, fun hb => ?_⟩
  · simp [busWrite_cmd, writeCmd, hb, setCmdLost]
  · simp [busWrite_cmd, writeCmd, hb, acceptCommand]

theorem writeInput_idle {s : State} (hb : s.busy = false) (store : State → State) : writeInput store s = store s := by
  simp [writeInput, hb]

/-- CFG bit by bit (rule R31). -/
theorem cfgWord_getLsbD (s : State) (i : Nat) :
    (cfgWord s).getLsbD i =
      if i < 2 then s.k1len.getLsbD i else if i < 4 then s.k2len.getLsbD (i - 2) else decide (i = 8) && s.ie := by
  change BitVec.getLsbD (w := 23 + 1 + 4 + 2 + 2) _ i = _
  simp only [cfgWord, BitVec.getLsbD_append, BitVec.getLsbD_ofBool, BitVec.getLsbD_zero]
  split_ifs <;> grind

/-- CFG keeps the bits of its three fields (rule R31). -/
theorem cfgWord_writeCfg (v : Word) (s : State) : cfgWord (writeCfg v s) = v &&& 0x0000010F#32 := by
  have hmask : ∀ i < 32, (0x0000010F#32).getLsbD i = decide (i < 4 ∨ i = 8) := by decide
  apply BitVec.eq_of_getLsbD_eq
  intro i hi
  rw [cfgWord_getLsbD, BitVec.getLsbD_and, hmask i hi]
  simp only [writeCfg_k1len, writeCfg_k2len, writeCfg_ie, BitVec.getLsbD_extractLsb']
  split_ifs <;> grind

/-- Settles O39. -/
theorem cfgAndLenReadBack : Obligations.CfgAndLenReadBack := by
  unfold Obligations.CfgAndLenReadBack
  intro v s hb
  rw [busWrite_cfg, busWrite_len, writeInput_idle hb, writeInput_idle hb]
  exact ⟨cfgWord_writeCfg v s, rfl, rfl, rfl⟩

/-! ### The byte lanes of a register file -/

/-- Byte `k` of a little-endian byte string (rule R9). -/
theorem leBytes_getElem (n v k : Nat) (hk : k < (leBytes n v).length) :
    (leBytes n v)[k] = BitVec.ofNat 8 (v / 256 ^ k) := by
  induction n generalizing v k with
  | zero => simp at hk
  | succ n ih =>
    cases k with
    | zero => simp [leBytes]
    | succ k => simp [leBytes, ih, Nat.div_div_eq_div_mul, Nat.pow_succ, Nat.mul_comm]

/-- Byte `b` of a word's lanes is its bits `8b+7 : 8b` (rule R64). -/
theorem wordBytes_getElem (w : Word) (b : Nat) (hb : b < (wordBytes w).length) :
    (wordBytes w)[b] = w.extractLsb' (8 * b) 8 := by
  apply BitVec.eq_of_toNat_eq
  simp only [wordBytes, leBytes_getElem, BitVec.toNat_ofNat, BitVec.extractLsb'_toNat, Nat.shiftRight_eq_div_pow]
  rw [show (256 : Nat) = 2 ^ 8 by decide, ← Nat.pow_mul]

/-- Byte `4j + b` of a list of words is byte `b` of word `j`, where there is a word `j` (rules R34, R35, R37). -/
theorem flatMap_wordBytes_getElem? (ws : List Word) (j b : Nat) (hb : b < 4) :
    (ws.flatMap wordBytes)[4 * j + b]? = ws[j]?.map (fun w => w.extractLsb' (8 * b) 8) := by
  induction ws generalizing j with
  | nil => simp
  | cons w ws ih =>
    rw [List.flatMap_cons]
    cases j with
    | zero =>
      have hb' : b < (wordBytes w).length := by simpa using hb
      rw [Nat.mul_zero, Nat.zero_add, List.getElem?_append_left hb', List.getElem?_eq_getElem hb']
      simp [wordBytes_getElem]
    | succ j =>
      rw [List.getElem?_append_right (by simp; omega), wordBytes_length,
        show 4 * (j + 1) + b - 4 = 4 * j + b by omega, ih]
      simp

theorem registerBytes_getD {n : Nat} (ws : Vector Word n) (j b : Nat) (hb : b < 4) :
    (registerBytes ws).getD (4 * j + b) 0#8 = (ws[j]?.map (fun w => w.extractLsb' (8 * b) 8)).getD 0#8 := by
  rw [List.getD_eq_getElem?_getD, registerBytes, flatMap_wordBytes_getElem? _ _ _ hb]
  simp

/-- A register write stores its four bytes of the file (rules R34, R35, R37). -/
theorem registerBytes_set_same {n : Nat} (ws : Vector Word n) (j : Fin n) (v : Word) (b : Nat) (hb : b < 4) :
    (registerBytes (ws.set j v)).getD (4 * j + b) 0#8 = v.extractLsb' (8 * b) 8 := by
  rw [registerBytes_getD _ _ _ hb]
  simp

/-- A register write leaves the other bytes of the file alone (rules R34, R35, R37). -/
theorem registerBytes_set_other {n : Nat} (ws : Vector Word n) (j : Fin n) (v : Word) {a : Nat}
    (ha : a < 4 * j ∨ 4 * j + 4 ≤ a) :
    (registerBytes (ws.set j v)).getD a 0#8 = (registerBytes ws).getD a 0#8 := by
  have hb : a % 4 < 4 := Nat.mod_lt _ (by decide)
  have hne : j.val ≠ a / 4 := by omega
  rw [← Nat.div_add_mod a 4, registerBytes_getD _ _ _ hb, registerBytes_getD _ _ _ hb,
    Vector.getElem?_set_ne _ hne]

/-! ### KEY1, KEY2, TWEAK and DIN -/

theorem busReg_key1 (j : Fin 8) : busReg (0x0040 + 4 * j) = .key1 j :=
  (busReg_eq_iff _ _).mpr ⟨by omega, by omega⟩

theorem busReg_key2 (j : Fin 8) : busReg (0x0060 + 4 * j) = .key2 j :=
  (busReg_eq_iff _ _).mpr ⟨by omega, by omega⟩

theorem busReg_tweak (j : Fin 4) : busReg (0x0080 + 4 * j) = .tweak j :=
  (busReg_eq_iff _ _).mpr ⟨by omega, by omega⟩

/-- Settles O40: the new file is the old one with word `j` replaced. -/
theorem keyWriteStoresFourBytes : Obligations.KeyWriteStoresFourBytes := by
  unfold Obligations.KeyWriteStoresFourBytes
  intro j v s hj hb
  refine ⟨⟨s.key1.set j v, ?_, registerBytes_set_same s.key1 ⟨j, hj⟩ v,
      fun a => registerBytes_set_other s.key1 ⟨j, hj⟩ v, busReadValue_of_keyOffset (by omega) (by omega) _⟩,
    ⟨s.key2.set j v, ?_, registerBytes_set_same s.key2 ⟨j, hj⟩ v,
      fun a => registerBytes_set_other s.key2 ⟨j, hj⟩ v, busReadValue_of_keyOffset (by omega) (by omega) _⟩⟩
  · simp [busWrite, busReg_key1 ⟨j, hj⟩, writeInput_idle hb]
  · simp [busWrite, busReg_key2 ⟨j, hj⟩, writeInput_idle hb]

/-- Settles O41, as O40; the word replaced is the word read. -/
theorem tweakWriteReadsBack : Obligations.TweakWriteReadsBack := by
  unfold Obligations.TweakWriteReadsBack
  intro j v s hj hb
  refine ⟨s.tweak.set j v, ?_, registerBytes_set_same s.tweak ⟨j, hj⟩ v,
    fun a => registerBytes_set_other s.tweak ⟨j, hj⟩ v, ?_⟩
  · simp [busWrite, busReg_tweak ⟨j, hj⟩, writeInput_idle hb]
  · simp [busReadValue, busReg_tweak ⟨j, hj⟩]

/-- Settles O42: the write is one `writeBytes` of the word's four lanes, read back byte by byte and whole. -/
theorem dinWriteReadsBack : Obligations.DinWriteReadsBack := by
  unfold Obligations.DinWriteReadsBack
  intro off v s hlo hhi hb
  have hreg : busReg off = .din := (busReg_eq_iff off .din).mpr (show off / 0x1000 = 1 by omega)
  have ht : busWrite off v s = { s with mem := s.mem.writeBytes off (wordBytes v) } := by
    simp [busWrite, hreg, writeInput_idle hb]
  rw [ht]
  refine ⟨?_, fun b hb4 => ?_, fun a ha => ?_, rfl⟩
  · simp only [busReadValue, hreg]
    exact (congrArg wordOfBytes (readBytes_writeBytes (s := s) rfl)).trans (wordOfBytes_wordBytes v)
  · have hb' : b < (wordBytes v).length := by simpa using hb4
    rw [readByte_writeBytes (s := s) rfl b hb', wordBytes_getElem]
  · exact readByte_writeBytes_frame (s := s) (t := { s with mem := s.mem.writeBytes off (wordBytes v) })
      (bs := wordBytes v) rfl rfl (by simpa using ha)

/-- Settles O50: the reset state is closed, and none of its bytes is written. -/
theorem resetValues : Obligations.ResetValues := by
  unfold Obligations.ResetValues
  have hkeys : ∀ j : Fin 8, State.reset.key1[j] = 0#32 ∧ State.reset.key2[j] = 0#32 := by decide
  have htweak : ∀ j : Fin 4, State.reset.tweak[j] = 0#32 := by decide
  exact ⟨rfl, rfl, rfl, rfl, rfl, rfl, rfl, rfl, rfl, rfl, rfl, rfl, rfl, rfl, hkeys, htweak, fun _ => rfl,
    rfl, rfl, rfl, rfl, rfl, rfl, rfl, rfl, rfl, rfl⟩

end Sys2Proof.Machine
end

section
/-! Proofs for the state, part 3: the commands on the state they read, the code each completes with, and what sets
and clears the flags of STATUS (rules R24 to R28, R36, R124, R125, R181, R182). -/

namespace Sys2Proof.Machine

/-! ### The AES commands -/

/-- An AES command under a length code that has a key: the frame, and the block it writes (rules R36, R124, R125). -/
theorem aesCommand_completes (dir : AesDir) (k : Bool) (s : State)
    (h : (selectedKey k s).2 = 0#2 ∨ (selectedKey k s).2 = 2#2) :
    Completed .ok 16 s (aesCommand aesPrimitive dir k s) ∧
      doutBlockAt (aesCommand aesPrimitive dir k s) 0 =
        blockFunction aesPrimitive dir (keyPrefix (selectedKey k s).1 (selectedKey k s).2) (dinBlockAt s 0) := by
  rw [aesCommand_of_code_legal h, aesKey_eq_keyPrefix, show dinBlock s = dinBlockAt s 0 from rfl]
  generalize blockFunction aesPrimitive dir _ _ = B
  have hlen : (blockBytes B).length = 16 := blockBytes_length B
  refine ⟨hlen ▸ completed_finishOk (blockBytes B) s, ?_⟩
  have hread : readBytes (finishOk (blockBytes B) 0 s) DOUT 16 = blockBytes B :=
    hlen ▸ doutBytes_finishOk (blockBytes B) s
  exact (congrArg blockOfBytes hread).trans (blockOfBytes_blockBytes B)

/-- Settles O8. -/
theorem aesEncCompletes : Obligations.AesEncCompletes := by
  unfold Obligations.AesEncCompletes
  exact fun s => ⟨fun h => ⟨_, rfl, aesCommand_completes .enc false s h⟩,
    fun h => ⟨_, rfl, aesCommand_completes .enc true s h⟩⟩

/-- Settles O9. -/
theorem aesDecCompletes : Obligations.AesDecCompletes := by
  unfold Obligations.AesDecCompletes
  exact fun s => ⟨fun h => ⟨_, rfl, aesCommand_completes .dec false s h⟩,
    fun h => ⟨_, rfl, aesCommand_completes .dec true s h⟩⟩

/-! ### What a command reads of a key file -/

/-- Under length code 0 the key is words 0 to 3 of its file (rule R36). -/
theorem aesKey_congr {w raw : Vector Word 8} {code : BitVec 2}
    (h : w = raw ∨ (code = 0#2 ∧ ∀ j : Fin 8, j.val < 4 → w[j] = raw[j])) : aesKey w code = aesKey raw code := by
  rcases h with rfl | ⟨rfl, h⟩
  · rfl
  · have h0 : w[0] = raw[0] := h 0 (by decide)
    have h1 : w[1] = raw[1] := h 1 (by decide)
    have h2 : w[2] = raw[2] := h 2 (by decide)
    have h3 : w[3] = raw[3] := h 3 (by decide)
    simp only [aesKey_eq_keyPrefix, keyPrefix, if_true, h0, h1, h2, h3]

theorem CompleteAlike.mem_eq {s u t v : State} (h : CompleteAlike s u t v) (hm : u.mem = s.mem) : v.mem = t.mem := by
  cases h with
  | err e => exact hm
  | ok S => simp [hm]

/-- The state with other key files. -/
def State.withKeys (s : State) (w1 w2 : Vector Word 8) : State := { s with key1 := w1, key2 := w2 }

section WithKeys
variable {s : State} {w1 w2 : Vector Word 8}

theorem dinBytes_withKeys (n : Nat) : dinBytes (s.withKeys w1 w2) n = dinBytes s n := readBytes_congr fun _ _ => rfl

theorem xtsCommand_withKeys (h1 : aesKey w1 s.k1len = aesKey s.key1 s.k1len)
    (h2 : aesKey w2 s.k2len = aesKey s.key2 s.k2len) (p : BlockCipher) (dir : AesDir) :
    CompleteAlike s (s.withKeys w1 w2) (xtsCommand p dir s) (xtsCommand p dir (s.withKeys w1 w2)) := by
  by_cases hs : xtsCheck s.duMax s.k1len s.k2len s.len = .ok
  · have hT : initialTweak p (s.withKeys w1 w2) = initialTweak p s := congrArg (p.enc · (tweakBlock s)) h2
    have hK : aesKey (s.withKeys w1 w2).key1 (s.withKeys w1 w2).k1len = aesKey s.key1 s.k1len := h1
    have hL : (s.withKeys w1 w2).len = s.len := rfl
    rw [xtsCommand_of_accepted hs, xtsCommand_of_accepted (s := s.withKeys w1 w2) hs, hK, hT, hL, dinBytes_withKeys]
    exact .ok _
  · rw [xtsCommand_of_rejected hs, xtsCommand_of_rejected (s := s.withKeys w1 w2) hs]
    exact .err _

theorem aesCommand_withKeys (h1 : aesKey w1 s.k1len = aesKey s.key1 s.k1len)
    (h2 : aesKey w2 s.k2len = aesKey s.key2 s.k2len) (p : BlockCipher) (dir : AesDir) (k : Bool) :
    CompleteAlike s (s.withKeys w1 w2) (aesCommand p dir k s) (aesCommand p dir k (s.withKeys w1 w2)) := by
  have hcode : (selectedKey k (s.withKeys w1 w2)).2 = (selectedKey k s).2 := by cases k <;> rfl
  have hkey : aesKey (selectedKey k (s.withKeys w1 w2)).1 (selectedKey k s).2 =
      aesKey (selectedKey k s).1 (selectedKey k s).2 := by
    cases k
    · exact h1
    · exact h2
  have hdin : dinBlock (s.withKeys w1 w2) = dinBlock s := congrArg blockOfBytes (dinBytes_withKeys 16)
  rcases aesCommand_cases p dir k s with ⟨hc, hs⟩ | ⟨hc, hs⟩ | ⟨hc, hs⟩
  · rw [hs, aesCommand_of_code_three (hcode.trans hc)]
    exact .err _
  · rw [hs, aesCommand_of_code_one (hcode.trans hc)]
    exact .err _
  · rw [hs, aesCommand_of_code_legal (hcode ▸ hc), hcode, hkey, hdin]
    exact .ok _

/-- A command reads its key files through the keys only (rule R36). -/
theorem exec_withKeys (h1 : aesKey w1 s.k1len = aesKey s.key1 s.k1len)
    (h2 : aesKey w2 s.k2len = aesKey s.key2 s.k2len) (i : Instr) :
    ∃ t u, exec i s = .next t ∧ exec i (s.withKeys w1 w2) = .next u ∧ CompleteAlike s (s.withKeys w1 w2) t u := by
  cases i with
  | xtsEnc => exact ⟨_, _, rfl, rfl, xtsCommand_withKeys h1 h2 aesPrimitive .enc⟩
  | xtsDec => exact ⟨_, _, rfl, rfl, xtsCommand_withKeys h1 h2 aesPrimitive .dec⟩
  | aesEncK1 => exact ⟨_, _, rfl, rfl, aesCommand_withKeys h1 h2 aesPrimitive .enc false⟩
  | aesEncK2 => exact ⟨_, _, rfl, rfl, aesCommand_withKeys h1 h2 aesPrimitive .enc true⟩
  | aesDecK1 => exact ⟨_, _, rfl, rfl, aesCommand_withKeys h1 h2 aesPrimitive .dec false⟩
  | aesDecK2 => exact ⟨_, _, rfl, rfl, aesCommand_withKeys h1 h2 aesPrimitive .dec true⟩
  | gfMulx => exact ⟨_, _, rfl, rfl, .ok _⟩

end WithKeys

/-- Settles O22: the keys are the same, so the two completions have one result over one memory. -/
theorem shortKeyIgnoresUpperWords : Obligations.ShortKeyIgnoresUpperWords := by
  unfold Obligations.ShortKeyIgnoresUpperWords
  intro i s w1 w2 hw1 hw2
  obtain ⟨t, u, ht, hu, halike⟩ := exec_withKeys (aesKey_congr hw1) (aesKey_congr hw2) i
  exact ⟨t, u, ht, hu, halike.err_eq, halike.mem_eq rfl⟩

/-! ### Which word decodes to which command -/

theorem decode_encode (i : Instr) : decode (encode i) = .ok i := by
  cases i <;> decide

/-- A word under the mask that leaves KEYSEL free is the pattern, with KEYSEL put in (rule R82). -/
theorem eq_of_and_keySelMask {c p : Word} (h : c &&& 0xFFFFFFEF#32 = p) :
    c = p ||| if keySelField c then 0x10#32 else 0#32 := by
  have hsel : c &&& 0x10#32 = if keySelField c then 0x10#32 else 0#32 := BitVec.and_twoPow c 4
  rw [← hsel, ← h, ← BitVec.and_or_distrib_left]
  exact (BitVec.and_allOnes).symm

/-- The words that decode to a command are those of rule R88. -/
theorem eq_encode_of_decode {c : Word} {i : Instr} (h : decode c = .ok i) : c = encode i := by
  unfold decode at h
  split at h
  next r hr =>
    have hi : (if keySelField c then r.key2 else r.key1) = i := Except.ok.inj h
    have hmask : c &&& r.mask = r.pattern := by simpa using List.find?_some hr
    have hfull : c &&& 0xFFFFFFFF#32 = c := BitVec.and_allOnes
    have hrow : r ∈ opcodeMap := List.mem_of_find?_eq_some hr
    simp only [opcodeMap, List.mem_cons, List.not_mem_nil, or_false] at hrow
    rcases hrow with rfl | rfl | rfl | rfl | rfl
    · rw [← hi, ite_self]
      exact hfull.symm.trans hmask
    · rw [← hi, ite_self]
      exact hfull.symm.trans hmask
    · rw [← hi, eq_of_and_keySelMask hmask]
      cases keySelField c <;> rfl
    · rw [← hi, eq_of_and_keySelMask hmask]
      cases keySelField c <;> rfl
    · rw [← hi, ite_self]
      exact hfull.symm.trans hmask
  next => cases h

/-- Settles O6: the stored word decodes to its command, and the scheduled turn is the engine's. -/
theorem fetchWordRunsNext : Obligations.FetchWordRunsNext := by
  unfold Obligations.FetchWordRunsNext
  intro s i
  have hword : commandWordOf 32 (encode i).toNat = encode i := by cases i <;> rfl
  rw [step_of_engine (ts := s.turns) rfl]
  refine (engineTurn_of_decode (i := i) rfl ?_).trans ?_
  · exact (congrArg decode hword).trans (decode_encode i)
  · simp only [State.withFetchWord, hword, acceptCommand]

/-! ### The code each command completes with -/

/-- The code of each command, as the statements spell its checks (rules R181, R182). -/
def commandVerdict (s : State) : Instr → ErrCode
  | .xtsEnc | .xtsDec => xtsVerdict s
  | .aesEncK1 | .aesDecK1 => keyVerdict s.k1len
  | .aesEncK2 | .aesDecK2 => keyVerdict s.k2len
  | .gfMulx => .ok

theorem completionCode_of_decode {s : State} {i : Instr} (h : decode s.hidCmd = .ok i) :
    completionCode s = commandVerdict s i := by
  unfold completionCode
  rw [eq_encode_of_decode h]
  cases i <;> rfl

theorem completionCode_of_illegal {s : State} {e : DecodeError} (h : decode s.hidCmd = .error e) :
    completionCode s = .illegalCmd := by
  have hne : ∀ i, s.hidCmd ≠ encode i := by
    intro i hi
    rw [hi, decode_encode] at h
    cases h
  have hxts : ¬(s.hidCmd = 0x1#32 ∨ s.hidCmd = 0x2#32) := not_or.mpr ⟨hne .xtsEnc, hne .xtsDec⟩
  have hk1 : ¬(s.hidCmd = 0x3#32 ∨ s.hidCmd = 0x4#32) := not_or.mpr ⟨hne .aesEncK1, hne .aesDecK1⟩
  have hk2 : ¬(s.hidCmd = 0x13#32 ∨ s.hidCmd = 0x14#32) := not_or.mpr ⟨hne .aesEncK2, hne .aesDecK2⟩
  have hgf : s.hidCmd ≠ 0x5#32 := hne .gfMulx
  rw [completionCode, if_neg hxts, if_neg hk1, if_neg hk2, if_neg hgf]

theorem xtsCommand_err (p : BlockCipher) (dir : AesDir) (s : State) :
    (xtsCommand p dir s).err = (xtsVerdict s).code := by
  rw [← xtsCheck_eq_xtsVerdict]
  rcases xtsCommand_cases p dir s with ⟨e, -, hc, h⟩ | ⟨hc, h⟩ <;> rw [h, hc] <;> rfl

theorem aesCommand_err (p : BlockCipher) (dir : AesDir) (k : Bool) (s : State) :
    (aesCommand p dir k s).err = (keyVerdict (selectedKey k s).2).code := by
  rcases aesCommand_cases p dir k s with ⟨hc, h⟩ | ⟨hc, h⟩ | ⟨hc | hc, h⟩ <;> rw [h, hc] <;> rfl

theorem exec_err {i : Instr} {s t : State} (h : exec i s = .next t) : t.err = (commandVerdict s i).code := by
  cases i with
  | xtsEnc | xtsDec => exact Host.Outcome.next.inj h ▸ xtsCommand_err ..
  | aesEncK1 | aesEncK2 | aesDecK1 | aesDecK2 => exact Host.Outcome.next.inj h ▸ aesCommand_err ..
  | gfMulx => exact Host.Outcome.next.inj h ▸ rfl

/-- A completion writes the code of rules R181 and R182 to ERR. -/
theorem completionStep_err {s t : State} (h : completionStep s = .next t) : t.err = (completionCode s).code := by
  cases hd : decode s.hidCmd with
  | ok i =>
    rw [completionCode_of_decode hd]
    exact exec_err ((completionStep_of_decode hd).symm.trans h)
  | error e =>
    rw [completionCode_of_illegal hd]
    simp only [completionStep, hd] at h
    exact Host.Outcome.next.inj h ▸ rfl

theorem completionStep_ends (s : State) : ∃ t, completionStep s = .next t := by
  rcases completionStep_finishes s with ⟨e, -, h⟩ | ⟨S, -, h⟩
  · exact ⟨_, h⟩
  · exact ⟨_, h⟩

/-! ### What sets and clears the flags -/

/-- Settles O44: the two host writes by the kind of their offset, the other agents by their frames. -/
theorem stickyFlagsChangeOnlyAsStated : Obligations.StickyFlagsChangeOnlyAsStated := by
  unfold Obligations.StickyFlagsChangeOnlyAsStated
  refine ⟨busWrite_cmdLost_iff, fun off v s hoff => busWrite_wrIgn_iff hoff v s, fun off s => ?_, fun s t h => ?_,
    fun s => ⟨rfl, rfl⟩⟩
  · obtain ⟨n, hn⟩ := busRead_eq off s
    rw [hn]
    exact ⟨rfl, rfl⟩
  · obtain ⟨-, hcmd, hwr, -⟩ := engineWritesOnlyStatusAndOutput s t h
    exact ⟨hcmd, hwr⟩

/-- Settles O45, agent by agent. -/
theorem busyDoneErrChangeOnlyAsStated : Obligations.BusyDoneErrChangeOnlyAsStated := by
  unfold Obligations.BusyDoneErrChangeOnlyAsStated
  refine ⟨fun off v s => ⟨busWrite_busy_iff off v s, busWrite_done_iff off v s, (busWrite_frame off v s).1⟩,
    fun off s => ?_, fun s hb => engineTurn_idle hb, fun s hb => ?_, fun s => ⟨rfl, rfl, rfl⟩⟩
  · obtain ⟨n, hn⟩ := busRead_eq off s
    rw [hn]
    exact ⟨rfl, rfl, rfl⟩
  · obtain ⟨t, ht⟩ := completionStep_ends s
    obtain ⟨e, n, -, -, hcomp⟩ := completionStep_completed ht
    exact ⟨t, (engineTurn_running hb).trans ht, hcomp.busy, hcomp.done, completionStep_err ht⟩

end Sys2Proof.Machine
end

section
/-! Proofs for the memory: which accesses the bus performs (rule R62), that a host read leaves the engine and later
reads as they were (rule R69), and the bits of the tweak multiplier (rules R66, R100). -/

namespace Sys2Proof.Machine

/-! ### Which accesses the bus performs -/

/-- An access in the window with a wrong width or alignment gets the bus error (rule R62). -/
theorem hostAccess_of_malformed {a : Access} (hin : a.off < Config.P_WINDOW) (hbad : a.width ≠ 4 ∨ a.off % 4 ≠ 0)
    (s : State) : hostAccess a s = .fault (.busError a.off) := by
  unfold hostAccess
  rw [if_neg (Nat.not_le.mpr hin), if_pos hbad]

/-- A 4-byte access at a multiple of 4 in the window is one that rule R61 allows. -/
theorem access_wellFormed {off : Nat} (hin : off < Config.P_WINDOW) (halign : off % 4 = 0) (w : Option Word) :
    (Access.mk off 4 w).wellFormed = true := by
  simp [Access.wellFormed, Access.widthOk, Access.aligned, Access.inWindow, hin, halign]

/-- The host's turn at a `bus` statement is that access, with the statement consumed (rule R90, log entry 14). -/
theorem hostTurn_of_bus {a : Access} {rest : HostProgram} {s : State} (h : s.program = .bus a rest) :
    hostTurn s = hostAccess a { s with program := rest } := by
  simp only [hostTurn, h]

/-- Settles O30: the malformed accesses at the bus and from there at the host's turn, then the well-formed ones. -/
theorem malformedAccessGetsBusError : Obligations.MalformedAccessGetsBusError := by
  unfold Obligations.MalformedAccessGetsBusError
  refine ⟨fun a s hin hbad => hostAccess_of_malformed hin hbad s, fun a rest s hprog hin hbad => ?_,
    fun off v s hin halign => ⟨?_, ?_⟩⟩
  · exact (hostTurn_of_bus hprog).trans (hostAccess_of_malformed hin hbad _)
  · exact hostAccess_of_wellFormed (access_wellFormed hin halign (some v)) s
  · exact hostAccess_of_wellFormed (access_wellFormed hin halign none) s

/-! ### What a read leaves as it was -/

/-- The host's last word and the count of free values are no part of the engine (rule R69, log entry 3). -/
theorem sameEngine_of_read_record (s : State) (l : Word) (n : Nat) :
    SameEngine s { s with lastRead := l, busyDoutReads := n } where
  inputs := sameInputs_of_flags_and_host s s.done s.cmdLost s.wrIgn s.program l s.rdMismatch n
  busy := rfl
  done := rfl
  cmdLost := rfl
  wrIgn := rfl
  err := rfl
  hidCmd := rfl
  scratch := rfl
  memory _ := rfl

/-- Only a DOUT read while BUSY = 1 depends on the count of free values, and no read on the host's last word (rules
R69, R224). -/
theorem busReadValue_of_read_record {off : Nat} {s : State} (h : busReg off = .dout → s.busy = false) (l : Word)
    (n : Nat) :
    busReadValue off { s with lastRead := l, busyDoutReads := n } = busReadValue off s := by
  have hbytes : readBytes { s with lastRead := l, busyDoutReads := n } off 4 = readBytes s off 4 :=
    readBytes_congr fun _ _ => rfl
  cases hr : busReg off with
  | dout =>
    have hidle : ¬s.busy = true := by simp [h hr]
    simp only [busReadValue, hr, if_neg hidle, hbytes]
  | din => simp only [busReadValue, hr, hbytes]
  | status => simp only [busReadValue, hr, statusWord]
  | cfg => simp only [busReadValue, hr, cfgWord]
  | id | cmd | len | dumax | key1 | key2 | tweak | reserved => simp only [busReadValue, hr]

/-- Settles O31: a read moves on only the host's last word and the count of free values, and a later read that is
not of DOUT while BUSY = 1 depends on neither. -/
theorem readsHaveNoSideEffects : Obligations.ReadsHaveNoSideEffects := by
  unfold Obligations.ReadsHaveNoSideEffects
  intro off s
  obtain ⟨n, hn⟩ := busRead_eq off s
  rw [hn]
  refine ⟨sameEngine_of_read_record s _ n, fun off' hoff' => busReadValue_of_read_record (fun hr => ?_) _ n⟩
  obtain ⟨hlo, hhi⟩ := busReg_dout hr
  exact Bool.eq_false_iff.mpr fun hb => hoff' ⟨hb, hlo, hhi⟩

/-! ### The bits of the tweak multiplier -/

/-- The carry of a doubling is the top bit alone (rule R100). -/
theorem ushiftRight_127_eq (T : Block) : T >>> 127 = if T.getLsbD 127 then 1#128 else 0#128 := by
  apply BitVec.eq_of_getLsbD_eq
  intro i hi
  rw [BitVec.getLsbD_ushiftRight]
  rcases Nat.eq_zero_or_pos i with rfl | hpos
  · cases T.getLsbD 127 <;> simp
  · rw [BitVec.getLsbD_of_ge T _ (by omega)]
    split <;> simp [BitVec.getLsbD_one, hpos.ne']

/-- `mulx` doubles, and reduces by 0x87 exactly when the top bit is 1 (rule R100). -/
theorem mulx_eq (T : Block) : mulx T = (T <<< 1) ^^^ (if T.getLsbD 127 then 0x87#128 else 0#128) := by
  rw [mulx, ushiftRight_127_eq]
  split <;> simp

/-- The bits of 0x87, the low part of the reduction polynomial (rule R100). -/
theorem getLsbD_reduction {k : Nat} (hk : k < 128) :
    (0x87#128).getLsbD k = decide (k = 0 ∨ k = 1 ∨ k = 2 ∨ k = 7) := by
  revert k
  decide

/-- Settles O56: a doubling moves each bit up by one, and the carry enters at the bits of 0x87. -/
theorem mulxBits : Obligations.MulxBits := by
  unfold Obligations.MulxBits
  intro T k hk
  have hshift : (T <<< 1).getLsbD k = (decide (1 ≤ k) && T.getLsbD (k - 1)) := by
    rw [BitVec.getLsbD_shiftLeft, decide_eq_true hk, Bool.true_and, ← decide_not, decide_eq_decide.mpr Nat.not_lt]
  have hcarry : (if T.getLsbD 127 then 0x87#128 else 0#128 : Block).getLsbD k =
      (T.getLsbD 127 && decide (k = 0 ∨ k = 1 ∨ k = 2 ∨ k = 7)) := by
    rw [← getLsbD_reduction hk]
    cases T.getLsbD 127
    · exact BitVec.getLsbD_zero
    · exact (Bool.true_and _).symm
  rw [mulx_eq, BitVec.getLsbD_xor, hshift, hcarry]

end Sys2Proof.Machine
end

section
/-! Proofs for the encoding: which bytes and words decode to which command (rules R82, R87, R88), the illegal words
and what the engine does with one (rules R84, R85), and the host's statements (rules R90, R91). -/

namespace Sys2Proof.Machine

/-! ### Decoding against encoding -/

/-- A command's own word decodes to it, and no other does (rules R82, R88). -/
theorem decode_eq_ok_iff {c : Word} {i : Instr} : decode c = .ok i ↔ c = encode i :=
  ⟨eq_encode_of_decode, fun h => h ▸ decode_encode i⟩

/-- The decoder takes one word's byte lanes and leaves the rest (rules R64, R80). -/
theorem decodeBytes_of_decode {w : Word} {i : Instr} (h : decode w = .ok i) (rest : List Byte) :
    decodeBytes (wordBytes w ++ rest) = .ok (i, rest) := by
  have hlanes : decode (wordOfBytes (wordBytes w)) = .ok i := by rwa [wordOfBytes_wordBytes]
  simp only [wordBytes, leBytes] at hlanes
  simp only [wordBytes, leBytes, List.cons_append, List.nil_append, decodeBytes, hlanes]

theorem decodeBytes_encodeBytes (i : Instr) (rest : List Byte) : decodeBytes (encodeBytes i ++ rest) = .ok (i, rest) :=
  decodeBytes_of_decode (decode_encode i) rest

/-- Settles O2. -/
theorem decodeAndEncodeAgree : Obligations.DecodeAndEncodeAgree := by
  unfold Obligations.DecodeAndEncodeAgree
  exact ⟨fun i rest _ => decodeBytes_encodeBytes i rest, fun _ _ => decode_eq_ok_iff⟩

/-- Settles O1: the listed bytes are the lanes of the five commands' words. -/
theorem commandWordsDecode : Obligations.CommandWordsDecode := by
  unfold Obligations.CommandWordsDecode
  exact ⟨decodeBytes_encodeBytes .xtsEnc [], decodeBytes_encodeBytes .xtsDec [],
    decodeBytes_encodeBytes .aesEncK2 [], decodeBytes_encodeBytes .aesDecK1 [], decodeBytes_encodeBytes .gfMulx []⟩

/-! ### Legality -/

/-- A command word is its three fields, side by side (rule R81). -/
theorem word_eq_fields (c : Word) : c = rsvdField c ++ BitVec.ofBool (keySelField c) ++ opField c := by
  apply BitVec.eq_of_getLsbD_eq
  intro k hk
  simp only [rsvdField, keySelField, opField, BitVec.getLsbD_append, BitVec.getLsbD_extractLsb', BitVec.getLsbD_ofBool]
  by_cases hop : k < 4
  · simp [hop]
  · by_cases hsel : k = 4
    · simp [hsel]
    · have hrsvd : ¬k - 4 < 1 := by omega
      have hback : 5 + (k - 4 - 1) = k := by omega
      have hlt : k - 4 - 1 < 27 := by omega
      simp [hop, hrsvd, hback, hlt]

/-- The legality predicate, field by field (rule R84). -/
theorem legal_iff (c : Word) :
    legal c = true ↔ rsvdField c = 0#27 ∧
      (opField c = 1#4 ∨ opField c = 2#4 ∨ opField c = 3#4 ∨ opField c = 4#4 ∨ opField c = 5#4) ∧
      (keySelField c = false ∨ opField c = 3#4 ∨ opField c = 4#4) := by
  simp [legal, or_assoc, and_assoc]

theorem legal_encode (i : Instr) : legal (encode i) = true := by
  cases i <;> decide

/-- The fields of a legal word leave only the words of rule R88. -/
theorem exists_encode_of_legal {c : Word} (h : legal c = true) : ∃ i, c = encode i := by
  obtain ⟨hrsvd, hop, hsel⟩ := (legal_iff c).mp h
  have hzero (h3 : opField c ≠ 3#4) (h4 : opField c ≠ 4#4) : keySelField c = false :=
    hsel.resolve_right (not_or.mpr ⟨h3, h4⟩)
  rw [word_eq_fields c, hrsvd]
  rcases hop with hop | hop | hop | hop | hop <;> rw [hop] at hzero ⊢
  · rw [hzero (by decide) (by decide)]
    exact ⟨.xtsEnc, rfl⟩
  · rw [hzero (by decide) (by decide)]
    exact ⟨.xtsDec, rfl⟩
  · cases keySelField c
    · exact ⟨.aesEncK1, rfl⟩
    · exact ⟨.aesEncK2, rfl⟩
  · cases keySelField c
    · exact ⟨.aesDecK1, rfl⟩
    · exact ⟨.aesDecK2, rfl⟩
  · rw [hzero (by decide) (by decide)]
    exact ⟨.gfMulx, rfl⟩

theorem legal_iff_exists_decode (c : Word) : legal c = true ↔ ∃ i, decode c = .ok i := by
  constructor
  · intro h
    obtain ⟨i, hi⟩ := exists_encode_of_legal h
    exact ⟨i, decode_eq_ok_iff.mpr hi⟩
  · rintro ⟨i, hi⟩
    exact decode_eq_ok_iff.mp hi ▸ legal_encode i

/-- Every word is a command or the illegal command with that word (rules R85, R87). -/
theorem decode_ok_or_illegal (c : Word) : (∃ i, decode c = .ok i) ∨ decode c = .error (.illegalCommand c) := by
  unfold decode
  split
  · exact .inl ⟨_, rfl⟩
  · exact .inr rfl

theorem decode_of_not_legal {c : Word} (h : legal c = false) : decode c = .error (.illegalCommand c) :=
  (decode_ok_or_illegal c).resolve_left fun hok => Bool.false_ne_true (h.symm.trans ((legal_iff_exists_decode c).mpr hok))

/-! ### The rows of the opcode map -/

/-- Every row's mask keeps the whole OP field (rule R82). -/
theorem opField_mask {r : OpcodeRow} (h : r ∈ opcodeMap) : opField r.mask = 0xF#4 := by
  revert r
  decide

/-- A word that a row selects has that row's OP (rule R82). -/
theorem opField_of_selected {r : OpcodeRow} (hr : r ∈ opcodeMap) {c : Word} (h : c &&& r.mask = r.pattern) :
    opField c = opField r.pattern := by
  have hmask : opField c &&& opField r.mask = opField c := by
    rw [opField_mask hr]
    exact BitVec.and_allOnes
  rw [← h, ← hmask]
  exact BitVec.extractLsb'_and.symm

/-- The rows' OP values differ (rule R87). -/
theorem opcodeMap_pairwise_opField : opcodeMap.Pairwise (fun r q => opField r.pattern ≠ opField q.pattern) := by
  decide

/-- Settles O3: a command word is its command's alone, and a word selected by two rows would have two OP values. -/
theorem decodingIsTotalAndUnambiguous : Obligations.DecodingIsTotalAndUnambiguous := by
  unfold Obligations.DecodingIsTotalAndUnambiguous
  refine ⟨fun c => (decode_ok_or_illegal c).imp_left ?_, legal_iff_exists_decode,
    opcodeMap_pairwise_opField.imp_of_mem ?_⟩
  · rintro ⟨i, hi⟩
    exact ⟨i, hi, fun j hj => Except.ok.inj (hj.symm.trans hi)⟩
  · intro r q hr hq hne
    refine ⟨hne, fun c hboth => hne ?_⟩
    obtain ⟨hselr, hselq⟩ := hboth
    exact (opField_of_selected hr hselr).symm.trans (opField_of_selected hq hselq)

/-! ### Illegal words -/

/-- The OP and KEYSEL values that legality forbids (rule R85). -/
theorem opcode_not_legal_iff (op : BitVec 4) (sel : Bool) :
    ¬((op = 1#4 ∨ op = 2#4 ∨ op = 3#4 ∨ op = 4#4 ∨ op = 5#4) ∧ (sel = false ∨ op = 3#4 ∨ op = 4#4)) ↔
      (op = 0#4 ∨ 6 ≤ op.toNat ∨ (sel = true ∧ (op = 1#4 ∨ op = 2#4 ∨ op = 5#4))) := by
  revert op sel
  decide

/-- The completion step of an illegal word ends it with ILLEGAL_CMD (rules R85, R181). -/
theorem completionStep_of_not_legal {s : State} (h : legal s.hidCmd = false) :
    completionStep s = .next (finishErr .illegalCmd s) := by
  simp only [completionStep, decode_of_not_legal h]

/-- Settles O4: the forbidden field values, the acceptance of any word, and the completion with an error. -/
theorem illegalWordsCompleteWithIllegalCmd : Obligations.IllegalWordsCompleteWithIllegalCmd := by
  unfold Obligations.IllegalWordsCompleteWithIllegalCmd
  refine ⟨fun c => ?_, fun c s _ hb => ?_, fun s h => ?_⟩
  · rw [← Bool.not_eq_true, legal_iff, not_and_or, opcode_not_legal_iff]
    tauto
  · obtain ⟨-, -, haccepted⟩ := cmdWriteIsAcceptedOrDropped c s
    exact haccepted hb
  · exact ⟨_, completionStep_of_not_legal h, completed_finishErr .illegalCmd s⟩

/-! ### The host's statements -/

theorem hostAccess_read {off : Nat} (hin : off < Config.P_WINDOW) (halign : off % 4 = 0) (s : State) :
    hostAccess ⟨off, 4, none⟩ s = .next (busRead off s) :=
  hostAccess_of_wellFormed (access_wellFormed hin halign none) s

theorem hostAccess_write {off : Nat} (hin : off < Config.P_WINDOW) (halign : off % 4 = 0) (v : Word) (s : State) :
    hostAccess ⟨off, 4, some v⟩ s = .next (busWrite off v s) :=
  hostAccess_of_wellFormed (access_wellFormed hin halign (some v)) s

/-- The host's place in its program is nothing a read depends on (rule R69). -/
theorem busReadValue_of_program (off : Nat) (s : State) (p : HostProgram) :
    busReadValue off { s with program := p } = busReadValue off s := rfl

@[simp] theorem hostValue_imm (s : State) (v : Word) : hostValue s (.imm v) = v := rfl
@[simp] theorem hostValue_lastRead (s : State) : hostValue s .lastRead = s.lastRead := rfl
@[simp] theorem noteExpected_none (s : State) : noteExpected none s = s := rfl

section
variable {s : State} {off : Nat} {rest : HostProgram}

/-- The turn at `wr OFF, VAL` (rule R90). -/
theorem hostTurn_of_wr {val : HostValue} (h : s.program = .wr off val rest) (hin : off < Config.P_WINDOW)
    (halign : off % 4 = 0) : hostTurn s = .next (busWrite off (hostValue s val) { s with program := rest }) := by
  simp only [hostTurn, h, hostAccess_write hin halign]

/-- The turn at `rd OFF [== VAL]` (rule R90). -/
theorem hostTurn_of_rd {e : Option Word} (h : s.program = .rd off e rest) (hin : off < Config.P_WINDOW)
    (halign : off % 4 = 0) : hostTurn s = .next (noteExpected e (busRead off { s with program := rest })) := by
  simp only [hostTurn, h, hostAccess_read hin halign, mapNext_next]

/-- The turn at `poll OFF, MASK, VAL` (rule R90). -/
theorem hostTurn_of_poll {m v : Word} (h : s.program = .poll off m v rest) (hin : off < Config.P_WINDOW)
    (halign : off % 4 = 0) : hostTurn s = .next (pollNext m v rest (busRead off s)) := by
  simp only [hostTurn, h, hostAccess_read hin halign, mapNext_next]

/-- The turn at a `repeat` with a round to go (rule R90, log entry 6). -/
theorem hostTurn_of_rep_succ {n : Nat} {body : HostProgram} (h : s.program = .rep (n + 1) body rest) :
    hostTurn s = .next { s with program := body.append (.rep n body rest) } := by
  simp only [hostTurn, h]

/-- The turn at a `repeat` with no round to go (rule R90, log entry 6). -/
theorem hostTurn_of_rep_zero {body : HostProgram} (h : s.program = .rep 0 body rest) :
    hostTurn s = .next { s with program := rest } := by
  simp only [hostTurn, h]

end

/-- What the host keeps of a read with a stated value (rule R90, log entry 15). -/
theorem noteExpected_busRead (off : Nat) (v : Word) (s : State) :
    (noteExpected (some v) (busRead off s)).lastRead = busReadValue off s ∧
    (noteExpected (some v) (busRead off s)).program = s.program ∧
    ((noteExpected (some v) (busRead off s)).rdMismatch = true ↔ s.rdMismatch = true ∨ busReadValue off s ≠ v) := by
  obtain ⟨n, hn⟩ := busRead_eq off s
  rw [hn]
  exact ⟨rfl, rfl, by simp [noteExpected]⟩

/-- What the host keeps of a poll's read, and where it goes on (rule R90). -/
theorem pollNext_busRead (off : Nat) (m v : Word) (rest : HostProgram) (s : State) :
    (pollNext m v rest (busRead off s)).lastRead = busReadValue off s ∧
    (pollNext m v rest (busRead off s)).program = (if busReadValue off s &&& m = v then rest else s.program) := by
  obtain ⟨n, hn⟩ := busRead_eq off s
  rw [hn]
  unfold pollNext
  split
  · exact ⟨rfl, rfl⟩
  · exact ⟨rfl, rfl⟩

/-- Settles O55, statement by statement. -/
theorem hostStatementsRunAsWritten : Obligations.HostStatementsRunAsWritten := by
  unfold Obligations.HostStatementsRunAsWritten
  intro s off rest hin halign
  refine ⟨fun v h => ?_, fun h => ?_, fun h => ?_, fun v h => ⟨_, hostTurn_of_rd h hin halign, ?_⟩,
    fun m v h => ⟨_, hostTurn_of_poll h hin halign, pollNext_busRead off m v rest s⟩,
    fun n body h => hostTurn_of_rep_succ h, fun body h => hostTurn_of_rep_zero h⟩
  · rw [hostTurn_of_wr h hin halign, hostValue_imm]
  · rw [hostTurn_of_wr h hin halign, hostValue_lastRead]
  · rw [hostTurn_of_rd h hin halign, noteExpected_none]
  · rw [← busReadValue_of_program off s rest]
    exact noteExpected_busRead off v { s with program := rest }

end Sys2Proof.Machine
end

section
/-! Proofs for the tweak multiplier, part 1: the bytes of `mulx`, its algebra, and the command (rules R100 to R105). -/

namespace Sys2Proof.Machine

/-! ### The bits of a block, byte by byte -/

/-- Bit `j` of byte `k` of a block is bit `8k + j` of its number (rules R9, R66). -/
theorem blockBytes_getElem_getLsbD (T : Block) {k j : Nat} (hk : k < (blockBytes T).length) (hj : j < 8) :
    (blockBytes T)[k].getLsbD j = T.getLsbD (8 * k + j) := by
  simp only [blockBytes, leBytes_getElem]
  rw [show (256 : Nat) = 2 ^ 8 by decide, ← Nat.pow_mul, BitVec.getLsbD_ofNat, Nat.testBit_div_two_pow,
    decide_eq_true hj, Bool.true_and, Nat.add_comm, BitVec.testBit_toNat]

theorem blockBytes_getD_getLsbD (T : Block) {k j : Nat} (hk : k < 16) (hj : j < 8) :
    ((blockBytes T).getD k 0#8).getLsbD j = T.getLsbD (8 * k + j) := by
  have hlen : k < (blockBytes T).length := by simpa using hk
  rw [List.getD_eq_getElem _ _ hlen, blockBytes_getElem_getLsbD T hlen hj]

/-- The last byte of a block is byte 15 (rule R101). -/
theorem blockBytes_getLastD (T : Block) : (blockBytes T).getLastD 0#8 = (blockBytes T).getD 15 0#8 := by
  rw [List.getLastD_eq_getLast?, List.getLast?_eq_getElem?, blockBytes_length, List.getD_eq_getElem?_getD]

/-- A register file of four words holds the bytes of the block it is read as (rule R37). -/
theorem blockBytes_tweakBlock (s : State) : blockBytes (tweakBlock s) = registerBytes s.tweak :=
  blockBytes_blockOfBytes (registerBytes_length s.tweak)

/-! ### The multiplication byte by byte -/

@[simp] theorem shiftLeftBytes_length (p : Byte) (S : List Byte) : (shiftLeftBytes p S).length = S.length := by
  induction S generalizing p with
  | nil => rfl
  | cons b S ih => simp [shiftLeftBytes, ih]

/-- Each byte moves up by one bit and takes in the top bit of the byte before it (rule R101). -/
theorem shiftLeftBytes_getElem (p : Byte) (S : List Byte) (k : Nat) (hk : k < S.length) :
    (shiftLeftBytes p S)[k]'(by simpa using hk) =
      (S[k] <<< 1) ||| ((p :: S)[k]'(Nat.lt_succ_of_lt hk) >>> 7) := by
  induction S generalizing p k with
  | nil => simp at hk
  | cons b S ih =>
    cases k with
    | zero => rfl
    | succ k => exact ih b k (by simpa using hk)

/-- The mask of rule R101 is 0x87 or 0, by the top bit of the last byte. -/
theorem reductionMask_eq (b : Byte) : 0x87#8 &&& (0x00#8 - (b >>> 7)) = if b.getLsbD 7 then 0x87#8 else 0#8 := by
  revert b
  decide

/-- The mask goes into byte 0 alone (rule R101). -/
theorem mulxBytes_eq (S : List Byte) :
    mulxBytes S =
      (shiftLeftBytes 0#8 S).modifyHead (· ^^^ (if (S.getLastD 0#8).getLsbD 7 then 0x87#8 else 0#8)) := by
  simp only [mulxBytes, reductionMask_eq]
  cases shiftLeftBytes 0#8 S <;> rfl

@[simp] theorem mulxBytes_length (S : List Byte) : (mulxBytes S).length = S.length := by
  simp [mulxBytes_eq]

/-- The bytes shifted by one bit are the number shifted by one bit (rules R66, R101). -/
theorem shiftLeftBytes_blockBytes_getLsbD (T : Block) {k j : Nat} (hk : k < (shiftLeftBytes 0#8 (blockBytes T)).length)
    (hj : j < 8) :
    (shiftLeftBytes 0#8 (blockBytes T))[k].getLsbD j = (decide (1 ≤ 8 * k + j) && T.getLsbD (8 * k + j - 1)) := by
  have hk' : k < (blockBytes T).length := by simpa using hk
  rw [shiftLeftBytes_getElem 0#8 _ k hk', BitVec.getLsbD_or, BitVec.getLsbD_shiftLeft, BitVec.getLsbD_ushiftRight]
  cases j with
  | succ j =>
    rw [BitVec.getLsbD_of_ge _ (7 + (j + 1)) (by omega), Nat.add_sub_cancel,
      blockBytes_getElem_getLsbD T hk' (by omega)]
    simp [hj, ← Nat.add_assoc]
  | zero =>
    cases k with
    | zero => simp
    | succ k =>
      have hprev : 8 * (k + 1) + 0 - 1 = 8 * k + 7 := by omega
      have hpos : 1 ≤ 8 * (k + 1) + 0 := by omega
      rw [List.getElem_cons_succ, decide_eq_true hpos, hprev,
        ← blockBytes_getElem_getLsbD T (Nat.lt_of_succ_lt hk') (by decide)]
      simp

/-- Settles O57, bit by bit. -/
theorem mulxByteByByte : Obligations.MulxByteByByte := by
  unfold Obligations.MulxByteByByte
  intro T
  apply List.ext_getElem (by simp)
  intro k hk _
  have hk16 : k < 16 := by simpa using hk
  apply BitVec.eq_of_getLsbD_eq
  intro j hj
  have hcarry : ((blockBytes T).getLastD 0#8).getLsbD 7 = T.getLsbD 127 := by
    rw [blockBytes_getLastD, blockBytes_getD_getLsbD T (by decide) (by decide)]
  have hmask : ∀ j < 8, (0x87#8).getLsbD j = decide (j = 0 ∨ j = 1 ∨ j = 2 ∨ j = 7) := by decide
  rw [blockBytes_getElem_getLsbD _ _ hj, mulxBits T (8 * k + j) (by omega)]
  simp only [mulxBytes_eq, List.getElem_modifyHead, hcarry]
  split
  next hk0 =>
    subst hk0
    rw [BitVec.getLsbD_xor, shiftLeftBytes_blockBytes_getLsbD T _ hj]
    cases T.getLsbD 127 <;> simp [hmask j hj]
  next hk0 =>
    have hhigh : ¬(8 * k + j = 0 ∨ 8 * k + j = 1 ∨ 8 * k + j = 2 ∨ 8 * k + j = 7) := by omega
    rw [shiftLeftBytes_blockBytes_getLsbD T _ hj, decide_eq_false hhigh, Bool.and_false, Bool.xor_false]

/-- Settles O7: the bytes written are those of `mulx`, which rule R101 computes byte by byte. -/
theorem gfMulxCompletes : Obligations.GfMulxCompletes := by
  unfold Obligations.GfMulxCompletes
  intro s
  have hlen : (blockBytes (mulx (tweakBlock s))).length = 16 := blockBytes_length _
  refine ⟨_, rfl, hlen ▸ completed_finishOk _ s, ?_⟩
  calc readBytes (finishOk (blockBytes (mulx (tweakBlock s))) 0 s) DOUT 16
      = blockBytes (mulx (tweakBlock s)) := hlen ▸ doutBytes_finishOk (blockBytes (mulx (tweakBlock s))) s
    _ = mulxBytes (registerBytes s.tweak) := by rw [← mulxByteByByte, blockBytes_tweakBlock]

/-! ### The algebra of `mulx` -/

@[simp] theorem mulx_zero : mulx 0#128 = 0#128 := by decide

theorem mulx_xor (A B : Block) : mulx (A ^^^ B) = mulx A ^^^ mulx B := by
  have hcarry : (if (A ^^^ B).getLsbD 127 then 0x87#128 else 0#128) =
      (if A.getLsbD 127 then 0x87#128 else 0#128) ^^^ (if B.getLsbD 127 then 0x87#128 else 0#128) := by
    rw [BitVec.getLsbD_xor]
    cases A.getLsbD 127 <;> cases B.getLsbD 127 <;> rfl
  rw [mulx_eq, mulx_eq, mulx_eq, BitVec.shiftLeft_xor_distrib, hcarry]
  ac_rfl

/-- Without a top bit `mulx` is a shift (rule R100). -/
theorem mulx_of_top_false {T : Block} (h : T.getLsbD 127 = false) : mulx T = T <<< 1 := by
  rw [mulx_eq, h, if_neg Bool.false_ne_true, BitVec.xor_zero]

/-- With a top bit the shift is reduced (rule R100). -/
theorem mulx_of_top_true {T : Block} (h : T.getLsbD 127 = true) : mulx T = T <<< 1 ^^^ 0x87#128 := by
  rw [mulx_eq, h, if_pos rfl]

/-- Bit 0 of a product is the top bit of the factor, so it tells the inverse whether to undo a reduction (rule R105). -/
theorem mulx_getLsbD_zero (T : Block) : (mulx T).getLsbD 0 = T.getLsbD 127 := by
  rw [mulxBits T 0 (by decide)]
  simp

theorem topBit_getLsbD (i : Nat) : (1#128 <<< 127).getLsbD i = decide (i = 127) := by
  rw [← BitVec.twoPow_eq, BitVec.getLsbD_twoPow, decide_eq_true (by decide), Bool.true_and]
  exact decide_eq_decide.mpr eq_comm

/-- Shifting up and down again loses the top bit alone. -/
theorem shiftLeft_ushiftRight_or_top (T : Block) :
    (T <<< 1 >>> 1) ||| (if T.getLsbD 127 then 1#128 <<< 127 else 0#128) = T := by
  apply BitVec.eq_of_getLsbD_eq
  intro i hi
  have htop : (if T.getLsbD 127 then 1#128 <<< 127 else 0#128 : Block).getLsbD i =
      (T.getLsbD 127 && decide (i = 127)) := by
    rw [← topBit_getLsbD i]
    cases T.getLsbD 127
    · exact BitVec.getLsbD_zero
    · exact (Bool.true_and _).symm
  rw [BitVec.getLsbD_or, BitVec.getLsbD_ushiftRight, BitVec.getLsbD_shiftLeft, htop]
  by_cases h : i = 127
  · subst h
    simp
  · have hlt : 1 + i < 128 := by omega
    simp [h, hlt]

/-- Shifting down and up again loses bit 0 alone. -/
theorem ushiftRight_shiftLeft_of_bit_zero {T : Block} (h : T.getLsbD 0 = false) : T >>> 1 <<< 1 = T := by
  apply BitVec.eq_of_getLsbD_eq
  intro i hi
  rw [BitVec.getLsbD_shiftLeft, BitVec.getLsbD_ushiftRight]
  cases i with
  | zero => exact h.symm
  | succ i => simp [hi, Nat.add_comm 1 i]

theorem mulxInv_mulx (T : Block) : mulxInv (mulx T) = T := by
  have hshift := shiftLeft_ushiftRight_or_top T
  rw [mulxInv, mulx_getLsbD_zero]
  cases htop : T.getLsbD 127 with
  | false =>
    rw [htop, if_neg Bool.false_ne_true, BitVec.or_zero] at hshift
    rw [if_neg Bool.false_ne_true, mulx_of_top_false htop, hshift]
  | true =>
    rw [htop, if_pos rfl] at hshift
    rw [if_pos rfl, mulx_of_top_true htop, BitVec.xor_assoc, BitVec.xor_self, BitVec.xor_zero, hshift]

theorem mulx_mulxInv (T : Block) : mulx (mulxInv T) = T := by
  rw [mulxInv]
  cases hbit : T.getLsbD 0 with
  | false =>
    have htop : (T >>> 1).getLsbD 127 = false := by
      rw [BitVec.getLsbD_ushiftRight, BitVec.getLsbD_of_ge T (1 + 127) (by decide)]
    rw [if_neg Bool.false_ne_true, mulx_of_top_false htop, ushiftRight_shiftLeft_of_bit_zero hbit]
  | true =>
    have htop : ((T ^^^ 0x87#128) >>> 1 ||| 1#128 <<< 127).getLsbD 127 = true := by
      rw [BitVec.getLsbD_or, topBit_getLsbD]
      simp
    have hzero : (T ^^^ 0x87#128).getLsbD 0 = false := by
      rw [BitVec.getLsbD_xor, hbit]
      rfl
    rw [if_pos rfl, mulx_of_top_true htop, BitVec.shiftLeft_or_distrib, ushiftRight_shiftLeft_of_bit_zero hzero,
      ← BitVec.shiftLeft_add, BitVec.shiftLeft_eq_zero (by decide), BitVec.or_zero, BitVec.xor_assoc,
      BitVec.xor_self, BitVec.xor_zero]

theorem mulx_bijective : Function.Bijective mulx :=
  Function.bijective_iff_has_inverse.mpr ⟨mulxInv, mulxInv_mulx, mulx_mulxInv⟩

/-- A last byte below 0x80 has no top bit (rule R105 (d)). -/
theorem top_false_of_last_lt {T : Block} (h : ((blockBytes T).getD 15 0#8).toNat < 0x80) : T.getLsbD 127 = false := by
  rw [← blockBytes_getD_getLsbD T (k := 15) (j := 7) (by decide) (by decide)]
  exact Nat.testBit_lt_two_pow h

/-- Without a top bit the number doubles (rule R105 (d)). -/
theorem mulx_toNat_of_top_false {T : Block} (h : T.getLsbD 127 = false) : (mulx T).toNat = 2 * T.toNat := by
  have hlt : T.toNat < 2 ^ 127 := BitVec.toNat_lt_of_msb_false ((BitVec.msb_eq_getLsbD_last T).trans h)
  rw [mulx_of_top_false h, BitVec.toNat_shiftLeft, Nat.shiftLeft_eq]
  omega

/-- Settles O59, law by law. -/
theorem mulxLaws : Obligations.MulxLaws := by
  unfold Obligations.MulxLaws
  exact ⟨mulx_zero, mulx_xor, fun T => ⟨mulxInv_mulx T, mulx_mulxInv T⟩, mulx_bijective,
    fun T h => mulx_toNat_of_top_false (top_false_of_last_lt h)⟩

end Sys2Proof.Machine
end

section
/-! Proofs for the tweak multiplier, part 2: blocks as polynomials over GF(2), and that the tweaks of a nonzero first
tweak do not repeat (rules R102, R106, R107). -/

namespace Sys2Proof.Machine
open Polynomial

/-! ### A block as a polynomial -/

/-- The polynomial of a block, bit `i` the coefficient of `X^i` (rule R102). -/
noncomputable def blockPoly (T : Block) : (ZMod 2)[X] :=
  ∑ i ∈ Finset.range 128, if T.getLsbD i then X ^ i else 0

/-- The reduction polynomial (rule R102).  It stays folded: the elaborator must not evaluate `X ^ 128`. -/
@[irreducible] noncomputable def reductionPoly : (ZMod 2)[X] := X ^ 128 + X ^ 7 + X ^ 2 + X + 1

/-- A sum over the bits of a number is the sum over its bytes of the sums over their bits. -/
theorem sum_range_bytes {M : Type} [AddCommMonoid M] (f : Nat → M) (n : Nat) :
    ∑ k ∈ Finset.range n, ∑ j ∈ Finset.range 8, f (8 * k + j) = ∑ i ∈ Finset.range (8 * n), f i := by
  induction n with
  | zero => simp
  | succ n ih => rw [Finset.sum_range_succ, ih, Nat.mul_succ, Finset.sum_range_add]

/-- The polynomial read byte by byte is that of the number (rules R66, R102). -/
theorem sum_bytes_eq_blockPoly (T : Block) :
    (∑ k ∈ Finset.range 16, ∑ j ∈ Finset.range 8,
      if ((blockBytes T).getD k 0#8).getLsbD j then (X : (ZMod 2)[X]) ^ (8 * k + j) else 0) = blockPoly T := by
  rw [blockPoly, ← sum_range_bytes _ 16]
  refine Finset.sum_congr rfl fun k hk => Finset.sum_congr rfl fun j hj => ?_
  rw [blockBytes_getD_getLsbD T (Finset.mem_range.mp hk) (Finset.mem_range.mp hj)]

@[simp] theorem coeff_blockPoly (T : Block) (i : Nat) : (blockPoly T).coeff i = if T.getLsbD i then 1 else 0 := by
  have hcoeff : (blockPoly T).coeff i = if i < 128 then (if T.getLsbD i then 1 else 0) else 0 := by
    have hterm : ∀ j, (if T.getLsbD j then (X : (ZMod 2)[X]) ^ j else 0).coeff i =
        if i = j then (if T.getLsbD j then 1 else 0) else 0 := by
      intro j
      cases T.getLsbD j <;> simp [coeff_X_pow]
    simp only [blockPoly, finsetSum_coeff, hterm, Finset.sum_ite_eq, Finset.mem_range]
  rw [hcoeff]
  split
  · rfl
  · rw [BitVec.getLsbD_of_ge T i (by omega), if_neg Bool.false_ne_true]

theorem degree_blockPoly_lt (T : Block) : (blockPoly T).degree < 128 := by
  refine (degree_lt_iff_coeff_zero _ 128).mpr fun i hi => ?_
  rw [coeff_blockPoly, BitVec.getLsbD_of_ge T i hi, if_neg Bool.false_ne_true]

theorem blockPoly_injective : Function.Injective blockPoly := by
  intro A B h
  have hbit : ∀ a b : Bool, (if a then (1 : ZMod 2) else 0) = (if b then 1 else 0) → a = b := by decide
  apply BitVec.eq_of_getLsbD_eq
  intro i _
  apply hbit
  rw [← coeff_blockPoly, ← coeff_blockPoly, h]

@[simp] theorem blockPoly_zero : blockPoly 0#128 = 0 := by
  ext i
  simp

@[simp] theorem blockPoly_one : blockPoly 1#128 = 1 := by
  ext i
  simp [coeff_one]

/-- A single bit is a power of `X` (rule R102). -/
theorem blockPoly_one_shiftLeft {j : Nat} (hj : j < 128) : blockPoly (1#128 <<< j) = X ^ j := by
  ext i
  rw [coeff_blockPoly, coeff_X_pow, ← BitVec.twoPow_eq, BitVec.getLsbD_twoPow, decide_eq_true hj, Bool.true_and]
  simp only [decide_eq_true_eq, @eq_comm _ i j]

/-- XOR of blocks is addition over GF(2) (rule R102). -/
theorem blockPoly_xor (A B : Block) : blockPoly (A ^^^ B) = blockPoly A + blockPoly B := by
  ext i
  rw [coeff_add, coeff_blockPoly, coeff_blockPoly, coeff_blockPoly, BitVec.getLsbD_xor]
  cases A.getLsbD i <;> cases B.getLsbD i <;> rfl

/-- Multiplying by `X^k` shifts the block left; the `k` bits shifted out stand at `X^128` and above. -/
theorem X_pow_mul_blockPoly {k : Nat} (hk : k ≤ 128) (T : Block) :
    X ^ k * blockPoly T = blockPoly (T <<< k) + X ^ 128 * blockPoly (T >>> (128 - k)) := by
  ext i
  rw [coeff_add, coeff_X_pow_mul', coeff_X_pow_mul', coeff_blockPoly, coeff_blockPoly, coeff_blockPoly,
    BitVec.getLsbD_shiftLeft, BitVec.getLsbD_ushiftRight]
  by_cases hi : i < 128
  · have hnot : ¬128 ≤ i := by omega
    by_cases hki : k ≤ i <;> simp [hi, hnot, hki]
  · have h128 : 128 ≤ i := by omega
    have hki : k ≤ i := by omega
    have hsub : 128 - k + (i - 128) = i - k := by omega
    simp [hi, h128, hki, hsub]

/-- A shift that loses no bit is a multiplication by `X^j`. -/
theorem blockPoly_shiftLeft {j : Nat} (hj : j ≤ 128) {T : Block} (h : T >>> (128 - j) = 0#128) :
    blockPoly (T <<< j) = X ^ j * blockPoly T := by
  rw [X_pow_mul_blockPoly hj, h, blockPoly_zero, mul_zero, add_zero]

/-! ### Multiplying by a power of `x` at once -/

/-- `x^k` times a block for `k ≤ 121`: the bits shifted out come back times `x^7 + x^2 + x + 1` (rule R102).  The
check of the tweaks runs on this, one step where `mulx` takes `k`. -/
def mulxShift (k : Nat) (T : Block) : Block :=
  let h := T >>> (128 - k)
  (T <<< k) ^^^ (h ^^^ (h <<< 1) ^^^ (h <<< 2) ^^^ (h <<< 7))

/-- The bits that a shift by at most 121 puts out move up by at most 7 without loss. -/
theorem blockPoly_out_shiftLeft {k j : Nat} (hk : k ≤ 121) (hj : j ≤ 7) (T : Block) :
    blockPoly (T >>> (128 - k) <<< j) = X ^ j * blockPoly (T >>> (128 - k)) := by
  apply blockPoly_shiftLeft (by omega)
  rw [← BitVec.shiftRight_add]
  exact BitVec.ushiftRight_eq_zero (by omega)

/-- A block times `X^k` is `mulxShift k` of it and a multiple of the reduction polynomial (rule R102). -/
theorem blockPoly_mulxShift {k : Nat} (hk : k ≤ 121) (T : Block) :
    blockPoly (mulxShift k T) + reductionPoly * blockPoly (T >>> (128 - k)) = X ^ k * blockPoly T := by
  rw [X_pow_mul_blockPoly (by omega), mulxShift, blockPoly_xor, blockPoly_xor, blockPoly_xor, blockPoly_xor,
    blockPoly_out_shiftLeft hk (by decide), blockPoly_out_shiftLeft hk (by decide),
    blockPoly_out_shiftLeft hk (by decide)]
  unfold reductionPoly
  generalize blockPoly (T >>> (128 - k)) = h
  generalize (X : (ZMod 2)[X]) ^ 128 = Y
  linear_combination (h + X * h + X ^ 2 * h + X ^ 7 * h) * (CharTwo.two_eq_zero : (2 : (ZMod 2)[X]) = 0)

theorem mulx_eq_mulxShift (T : Block) : mulx T = mulxShift 1 T := by
  have hout : ∀ b : Bool, (if b then 0x87#128 else 0#128) =
      let h : Block := if b then 1#128 else 0#128
      h ^^^ (h <<< 1) ^^^ (h <<< 2) ^^^ (h <<< 7) := by decide
  rw [mulx_eq, hout, ← ushiftRight_127_eq]
  rfl

/-! ### The reduction -/

theorem reductionPoly_monic : reductionPoly.Monic := by
  unfold reductionPoly
  monicity!

theorem degree_reductionPoly : reductionPoly.degree = 128 := by
  unfold reductionPoly
  compute_degree!

theorem degree_blockPoly_lt_reductionPoly (T : Block) : (blockPoly T).degree < reductionPoly.degree := by
  rw [degree_reductionPoly]
  exact degree_blockPoly_lt T

/-- The pattern 0x87 (rule R102). -/
theorem blockPoly_reduction : blockPoly 0x87#128 = X ^ 7 + X ^ 2 + X + 1 := by
  have hbits : 0x87#128 = (1#128 <<< 7) ^^^ (1#128 <<< 2) ^^^ (1#128 <<< 1) ^^^ 1#128 := by decide
  rw [hbits, blockPoly_xor, blockPoly_xor, blockPoly_xor, blockPoly_one_shiftLeft (by decide),
    blockPoly_one_shiftLeft (by decide), blockPoly_one_shiftLeft (by decide), blockPoly_one, pow_one]

/-- Settles O58: `mulx` differs from `x` times the block by a multiple of the reduction polynomial, and its degree is
below 128, so it is the remainder. -/
theorem mulxMultipliesByX : Obligations.MulxMultipliesByX := by
  unfold Obligations.MulxMultipliesByX
  simp only [sum_bytes_eq_blockPoly]
  refine ⟨fun T => ⟨degree_blockPoly_lt T, ?_⟩, blockPoly_reduction⟩
  have hmul : blockPoly (mulx T) + reductionPoly * blockPoly (T >>> 127) = X * blockPoly T := by
    have h := blockPoly_mulxShift (k := 1) (by decide) T
    rwa [← mulx_eq_mulxShift, pow_one] at h
  have hmod : X * blockPoly T %ₘ reductionPoly = blockPoly (mulx T) :=
    (div_modByMonic_unique _ _ reductionPoly_monic ⟨hmul, degree_blockPoly_lt_reductionPoly _⟩).2
  unfold reductionPoly at hmod
  exact hmod.symm

/-! ### Blocks modulo the reduction polynomial -/

/-- The class of a block modulo the reduction polynomial. -/
noncomputable def residue (T : Block) : AdjoinRoot reductionPoly := AdjoinRoot.mk reductionPoly (blockPoly T)

/-- The class of `x`. -/
noncomputable def alpha : AdjoinRoot reductionPoly := AdjoinRoot.root reductionPoly

theorem residue_one : residue 1#128 = 1 := by
  rw [residue, blockPoly_one, map_one]

theorem residue_xor (A B : Block) : residue (A ^^^ B) = residue A + residue B := by
  rw [residue, blockPoly_xor, map_add]
  rfl

/-- A block has a degree below that of the reduction polynomial, so only the zero block is 0 modulo it. -/
theorem eq_zero_of_residue_eq_zero {T : Block} (h : residue T = 0) : T = 0#128 := by
  have hzero : blockPoly T = 0 :=
    eq_zero_of_dvd_of_degree_lt (AdjoinRoot.mk_eq_zero.mp h) (degree_blockPoly_lt_reductionPoly T)
  exact blockPoly_injective (hzero.trans blockPoly_zero.symm)

theorem residue_mulxShift {k : Nat} (hk : k ≤ 121) (T : Block) :
    residue (mulxShift k T) = alpha ^ k * residue T := by
  have h := congrArg (AdjoinRoot.mk reductionPoly) (blockPoly_mulxShift hk T)
  rwa [map_add, map_mul, map_mul, AdjoinRoot.mk_self, zero_mul, add_zero, map_pow, AdjoinRoot.mk_X] at h

theorem residue_mulxPow (j : Nat) (T : Block) : residue (mulxPow j T) = alpha ^ j * residue T := by
  induction j with
  | zero => simp [mulxPow]
  | succ j ih =>
    rw [mulxPow, mulx_eq_mulxShift, residue_mulxShift (by decide), ih]
    ring

/-! ### No power of `x` from 1 to 299 is 1 -/

/-- `x^d` times a block for `d ≤ 300`, in three steps. -/
def mulxThird (d : Nat) (T : Block) : Block :=
  mulxShift (d / 3) (mulxShift ((d + 1) / 3) (mulxShift ((d + 2) / 3) T))

theorem residue_mulxThird {d : Nat} (hd : d ≤ 300) (T : Block) : residue (mulxThird d T) = alpha ^ d * residue T := by
  rw [mulxThird, residue_mulxShift (by omega), residue_mulxShift (by omega), residue_mulxShift (by omega),
    ← mul_assoc, ← mul_assoc, ← pow_add, ← pow_add, show d / 3 + (d + 1) / 3 + (d + 2) / 3 = d by omega]

/-- A block times `x^d + 1` for each `d` from 1 to `n`. -/
def timesPowersPlusOne : Nat → Block → Block
  | 0, T => T
  | n + 1, T => timesPowersPlusOne n (mulxThird (n + 1) T ^^^ T)

theorem residue_timesPowersPlusOne {n : Nat} (hn : n ≤ 300) (T : Block) :
    residue (timesPowersPlusOne n T) = (∏ d ∈ Finset.range n, (alpha ^ (d + 1) + 1)) * residue T := by
  induction n generalizing T with
  | zero => simp [timesPowersPlusOne]
  | succ n ih =>
    rw [timesPowersPlusOne, ih (by omega), residue_xor, residue_mulxThird hn, Finset.prod_range_succ]
    ring

/-- The inverse of the product of `x^d + 1` for `d` from 1 to 299, modulo the reduction polynomial. -/
def powersPlusOneInverse : Block := 0x125672cd1ebd57513976c6d0f88c3b1e#128

/-- The inverse, checked by running the 299 multiplications on it. -/
theorem timesPowersPlusOne_inverse : timesPowersPlusOne 299 powersPlusOneInverse = 1#128 := by
  decide +kernel

/-- Each `x^d + 1` divides a product that has an inverse, so it has one itself. -/
theorem isUnit_alpha_pow_add_one {d : Nat} (hpos : 1 ≤ d) (hlt : d < 300) : IsUnit (alpha ^ d + 1) := by
  have hprod : (∏ d ∈ Finset.range 299, (alpha ^ (d + 1) + 1)) * residue powersPlusOneInverse = 1 := by
    rw [← residue_timesPowersPlusOne (by decide), timesPowersPlusOne_inverse, residue_one]
  have hdvd : alpha ^ (d - 1 + 1) + 1 ∣ ∏ d ∈ Finset.range 299, (alpha ^ (d + 1) + 1) :=
    Finset.dvd_prod_of_mem (fun d => alpha ^ (d + 1) + 1) (Finset.mem_range.mpr (by omega))
  rw [Nat.sub_add_cancel hpos] at hdvd
  exact isUnit_of_dvd_unit hdvd (IsUnit.of_mul_eq_one _ hprod)

/-- `x^d + 1` has an inverse, so it takes no nonzero block to zero (rule R107). -/
theorem eq_zero_of_mulxPow_eq_self {T : Block} {d : Nat} (hpos : 1 ≤ d) (hlt : d < 300) (h : mulxPow d T = T) :
    T = 0#128 := by
  have hkill : (alpha ^ d + 1) * residue T = 0 := by
    rw [add_mul, one_mul, ← residue_mulxPow, ← residue_xor, h, BitVec.xor_self, residue, blockPoly_zero, map_zero]
  exact eq_zero_of_residue_eq_zero ((isUnit_alpha_pow_add_one hpos hlt).mul_right_eq_zero.mp hkill)

/-! ### The tweaks -/

theorem mulxPow_eq_iterate (j : Nat) : mulxPow j = mulx^[j] := by
  induction j with
  | zero => rfl
  | succ j ih => rw [Function.iterate_succ', ← ih]; rfl

theorem mulxPow_zero_block (j : Nat) : mulxPow j 0#128 = 0#128 := by
  rw [mulxPow_eq_iterate]
  exact Function.iterate_fixed mulx_zero j

/-- Two tweaks that agree would make the power between them fix the first tweak (rule R107). -/
theorem mulxPow_ne {T0 : Block} (hT0 : T0 ≠ 0#128) {i j : Nat} (hij : i < j) (hj : j < 300) :
    mulxPow i T0 ≠ mulxPow j T0 := by
  intro h
  have hsplit : mulxPow j T0 = mulxPow i (mulxPow (j - i) T0) := by
    rw [mulxPow_eq_iterate, mulxPow_eq_iterate, mulxPow_eq_iterate, ← Function.iterate_add_apply,
      Nat.add_sub_cancel' hij.le]
  have hinj : Function.Injective (mulxPow i) := by
    rw [mulxPow_eq_iterate]
    exact mulx_bijective.injective.iterate i
  exact hT0 (eq_zero_of_mulxPow_eq_self (d := j - i) (by omega) (by omega) (hinj (hsplit ▸ h)).symm)

/-- Settles O60: equal tweaks would let a power `x^d` with `1 ≤ d < 300` fix a nonzero block, but `x^d + 1` is a unit. -/
theorem tweaksDoNotRepeat : Obligations.TweaksDoNotRepeat := by
  unfold Obligations.TweaksDoNotRepeat
  refine ⟨fun j hpos hlt => (mulxPow_ne (i := 0) (by decide) hpos hlt).symm,
    fun T0 hT0 i j hij hj => mulxPow_ne hT0 hij hj, fun d n hn => ?_, mulxPow_zero_block⟩
  have hmax : n ≤ 4096 := hn.trans d.property.2
  unfold tweakCount
  omega

end Sys2Proof.Machine
end

section
/-! Proofs for the AES wrapper, part 1: the AES of this hardware is a permutation of the blocks under every key (rule
R120; the rounds are those of log entry 1). -/

namespace Sys2Proof.Machine

/-! ### A block and its state hold the same bytes -/

/-- The four parts that a concatenation of four puts together, lowest first. -/
theorem extractLsb'_append_four {w : Nat} (a b c d : BitVec w) :
    (d ++ c ++ b ++ a).extractLsb' 0 w = a ∧ (d ++ c ++ b ++ a).extractLsb' w w = b ∧
      (d ++ c ++ b ++ a).extractLsb' (w + w) w = c ∧ (d ++ c ++ b ++ a).extractLsb' (w + (w + w)) w = d := by
  have hlow {m : Nat} (hi : BitVec m) (lo : BitVec w) : (hi ++ lo).extractLsb' 0 w = lo :=
    (BitVec.extractLsb'_append_eq_of_add_le (by omega)).trans BitVec.extractLsb'_eq_self
  have hskip {m : Nat} (n : Nat) (hi : BitVec m) (lo : BitVec w) :
      (hi ++ lo).extractLsb' (w + n) w = hi.extractLsb' n w := by
    rw [BitVec.extractLsb'_append_eq_of_le (by omega), Nat.add_sub_cancel_left]
  refine ⟨hlow _ a, (hskip 0 _ a).trans (hlow _ b), ?_, ?_⟩
  · exact (hskip w _ a).trans ((hskip 0 _ b).trans (hlow d c))
  · exact (hskip (w + w) _ a).trans ((hskip w _ b).trans BitVec.extractLsb'_append_eq_left)

theorem append_extractLsb'_four {m : Nat} (v : BitVec m) (n w : Nat) :
    v.extractLsb' (n + 3 * w) w ++ v.extractLsb' (n + 2 * w) w ++ v.extractLsb' (n + w) w ++ v.extractLsb' n w =
      v.extractLsb' n (w + w + w + w) := by
  rw [BitVec.extractLsb'_append_extractLsb'_eq_extractLsb' (by omega),
    BitVec.extractLsb'_append_extractLsb'_eq_extractLsb' (by omega),
    BitVec.extractLsb'_append_extractLsb'_eq_extractLsb' (by omega)]

theorem extractLsb'_extractLsb'_within {m : Nat} (v : BitVec m) {n len i w : Nat} (h : i + w ≤ len) :
    (v.extractLsb' n len).extractLsb' i w = v.extractLsb' (n + i) w := by
  apply BitVec.eq_of_getLsbD_eq
  intro j hj
  simp [hj, show i + j < len by omega, Nat.add_assoc]

theorem AesColumn.ofBits_toBits (c : AesColumn) : AesColumn.ofBits c.toBits 0 = c := by
  obtain ⟨h0, h1, h2, h3⟩ := extractLsb'_append_four c.r0 c.r1 c.r2 c.r3
  exact congr (congr (congr (congrArg AesColumn.mk h0) h1) h2) h3

theorem AesColumn.toBits_ofBits {m : Nat} (v : BitVec m) (j : Nat) :
    (AesColumn.ofBits v j).toBits = v.extractLsb' (32 * j) 32 :=
  append_extractLsb'_four v (32 * j) 8

theorem AesColumn.ofBits_eq {m : Nat} (v : BitVec m) (j : Nat) :
    AesColumn.ofBits v j = AesColumn.ofBits (v.extractLsb' (32 * j) 32) 0 := by
  simp [AesColumn.ofBits, extractLsb'_extractLsb'_within]

theorem AesState.ofBlock_toBlock (s : AesState) : AesState.ofBlock s.toBlock = s := by
  obtain ⟨h0, h1, h2, h3⟩ := extractLsb'_append_four s.c0.toBits s.c1.toBits s.c2.toBits s.c3.toBits
  have hcol {j : Nat} {c : AesColumn} (h : s.toBlock.extractLsb' (32 * j) 32 = c.toBits) :
      AesColumn.ofBits s.toBlock j = c := by
    rw [AesColumn.ofBits_eq, h, AesColumn.ofBits_toBits]
  exact congr (congr (congr (congrArg AesState.mk (hcol h0)) (hcol h1)) (hcol h2)) (hcol h3)

theorem AesState.toBlock_ofBlock (B : Block) : (AesState.ofBlock B).toBlock = B := by
  simp only [AesState.toBlock, AesState.ofBlock, AesColumn.toBits_ofBits]
  exact (append_extractLsb'_four B 0 32).trans BitVec.extractLsb'_eq_self

/-! ### Byte functions that respect XOR -/

/-- A byte function that is linear over GF(2). -/
def XorLinear (f : Byte → Byte) : Prop := ∀ a b, f (a ^^^ b) = f a ^^^ f b

theorem XorLinear.id : XorLinear fun a => a := fun _ _ => rfl

theorem XorLinear.comp {f g : Byte → Byte} (hf : XorLinear f) (hg : XorLinear g) : XorLinear fun a => f (g a) :=
  fun a b => (congrArg f (hg a b)).trans (hf (g a) (g b))

theorem XorLinear.xor {f g : Byte → Byte} (hf : XorLinear f) (hg : XorLinear g) : XorLinear fun a => f a ^^^ g a := by
  intro a b
  simp only [hf a b, hg a b]
  ac_rfl

theorem xtime_eq : ∀ a : Byte, xtime a = (a <<< 1) ^^^ if a.getLsbD 7 then 0x1b#8 else 0#8 := by decide

theorem xtime_xorLinear : XorLinear xtime := by
  intro a b
  have hcarry : (if (a ^^^ b).getLsbD 7 then 0x1b#8 else 0#8) =
      (if a.getLsbD 7 then 0x1b#8 else 0#8) ^^^ (if b.getLsbD 7 then 0x1b#8 else 0#8) := by
    rw [BitVec.getLsbD_xor]
    cases a.getLsbD 7 <;> cases b.getLsbD 7 <;> rfl
  rw [xtime_eq, xtime_eq, xtime_eq, BitVec.shiftLeft_xor_distrib, hcarry]
  ac_rfl

theorem xtime_xtime_xorLinear : XorLinear fun a => xtime (xtime a) := xtime_xorLinear.comp xtime_xorLinear

theorem xtime_xtime_xtime_xorLinear : XorLinear fun a => xtime (xtime (xtime a)) :=
  xtime_xorLinear.comp xtime_xtime_xorLinear

theorem mul2_xorLinear : XorLinear mul2 := xtime_xorLinear
theorem mul3_xorLinear : XorLinear mul3 := xtime_xorLinear.xor .id
theorem mul9_xorLinear : XorLinear mul9 := xtime_xtime_xtime_xorLinear.xor .id
theorem mul11_xorLinear : XorLinear mul11 := (xtime_xtime_xtime_xorLinear.xor xtime_xorLinear).xor .id
theorem mul13_xorLinear : XorLinear mul13 := (xtime_xtime_xtime_xorLinear.xor xtime_xtime_xorLinear).xor .id
theorem mul14_xorLinear : XorLinear mul14 := (xtime_xtime_xtime_xorLinear.xor xtime_xtime_xorLinear).xor xtime_xorLinear

/-! ### MIXCOLUMNS and its inverse as circulant matrices -/

/-- The product of a column with the circulant matrix whose first row is `f g h k`. -/
def circulant (f g h k : Byte → Byte) (c : AesColumn) : AesColumn :=
  ⟨f c.r0 ^^^ g c.r1 ^^^ h c.r2 ^^^ k c.r3, k c.r0 ^^^ f c.r1 ^^^ g c.r2 ^^^ h c.r3,
    h c.r0 ^^^ k c.r1 ^^^ f c.r2 ^^^ g c.r3, g c.r0 ^^^ h c.r1 ^^^ k c.r2 ^^^ f c.r3⟩

theorem mixColumn_eq_circulant : mixColumn = circulant mul2 mul3 (fun a => a) (fun a => a) := rfl
theorem invMixColumn_eq_circulant : invMixColumn = circulant mul14 mul11 mul13 mul9 := rfl

/-- The product of two circulant matrices is circulant. -/
theorem circulant_circulant {f g h k : Byte → Byte} (hf : XorLinear f) (hg : XorLinear g) (hh : XorLinear h)
    (hk : XorLinear k) (f' g' h' k' : Byte → Byte) (c : AesColumn) :
    circulant f g h k (circulant f' g' h' k' c) =
      circulant (fun a => f (f' a) ^^^ g (k' a) ^^^ h (h' a) ^^^ k (g' a))
        (fun a => f (g' a) ^^^ g (f' a) ^^^ h (k' a) ^^^ k (h' a))
        (fun a => f (h' a) ^^^ g (g' a) ^^^ h (f' a) ^^^ k (k' a))
        (fun a => f (k' a) ^^^ g (h' a) ^^^ h (g' a) ^^^ k (f' a)) c := by
  simp only [circulant, hf _ _, hg _ _, hh _ _, hk _ _, AesColumn.mk.injEq]
  refine ⟨?_, ?_, ?_, ?_⟩ <;> ac_rfl

/-- A circulant matrix whose first row is `1 0 0 0` is the identity. -/
theorem circulant_eq_self {f g h k : Byte → Byte}
    (hrow : ∀ a, f a = a ∧ g a = 0#8 ∧ h a = 0#8 ∧ k a = 0#8) (c : AesColumn) : circulant f g h k c = c := by
  simp [circulant, hrow]

/-- First row of INVMIXCOLUMNS times MIXCOLUMNS, on every byte. -/
theorem invMixColumn_mixColumn_row : ∀ a : Byte,
    mul14 (mul2 a) ^^^ mul11 a ^^^ mul13 a ^^^ mul9 (mul3 a) = a ∧
      mul14 (mul3 a) ^^^ mul11 (mul2 a) ^^^ mul13 a ^^^ mul9 a = 0#8 ∧
      mul14 a ^^^ mul11 (mul3 a) ^^^ mul13 (mul2 a) ^^^ mul9 a = 0#8 ∧
      mul14 a ^^^ mul11 a ^^^ mul13 (mul3 a) ^^^ mul9 (mul2 a) = 0#8 := by decide +kernel

/-- First row of MIXCOLUMNS times INVMIXCOLUMNS, on every byte. -/
theorem mixColumn_invMixColumn_row : ∀ a : Byte,
    mul2 (mul14 a) ^^^ mul3 (mul9 a) ^^^ mul13 a ^^^ mul11 a = a ∧
      mul2 (mul11 a) ^^^ mul3 (mul14 a) ^^^ mul9 a ^^^ mul13 a = 0#8 ∧
      mul2 (mul13 a) ^^^ mul3 (mul11 a) ^^^ mul14 a ^^^ mul9 a = 0#8 ∧
      mul2 (mul9 a) ^^^ mul3 (mul13 a) ^^^ mul11 a ^^^ mul14 a = 0#8 := by decide +kernel

theorem invMixColumn_mixColumn (c : AesColumn) : invMixColumn (mixColumn c) = c := by
  rw [invMixColumn_eq_circulant, mixColumn_eq_circulant,
    circulant_circulant mul14_xorLinear mul11_xorLinear mul13_xorLinear mul9_xorLinear]
  exact circulant_eq_self invMixColumn_mixColumn_row c

theorem mixColumn_invMixColumn (c : AesColumn) : mixColumn (invMixColumn c) = c := by
  rw [invMixColumn_eq_circulant, mixColumn_eq_circulant,
    circulant_circulant mul2_xorLinear mul3_xorLinear .id .id]
  exact circulant_eq_self mixColumn_invMixColumn_row c

/-! ### Each transformation of a round is undone by its inverse -/

theorem AesColumn.map_map_cancel {f g : Byte → Byte} (h : ∀ a, g (f a) = a) (c : AesColumn) :
    (c.map f).map g = c := by
  simp [AesColumn.map, h]

theorem AesState.map_map_cancel {f g : AesColumn → AesColumn} (h : ∀ c, g (f c) = c) (s : AesState) :
    (s.map f).map g = s := by
  simp [AesState.map, h]

theorem invSubBytes_subBytes (s : AesState) : invSubBytes (subBytes s) = s :=
  AesState.map_map_cancel (AesColumn.map_map_cancel invSbox_sbox) s

theorem subBytes_invSubBytes (s : AesState) : subBytes (invSubBytes s) = s :=
  AesState.map_map_cancel (AesColumn.map_map_cancel sbox_invSbox) s

theorem invShiftRows_shiftRows (s : AesState) : invShiftRows (shiftRows s) = s := rfl
theorem shiftRows_invShiftRows (s : AesState) : shiftRows (invShiftRows s) = s := rfl

theorem addRoundKey_addRoundKey (k s : AesState) : addRoundKey k (addRoundKey k s) = s := by
  simp [addRoundKey, AesColumn.xor]

/-! ### The rounds, one key at a time -/

/-- What CIPHER does between one round key and the next, when the keys `ks` come after that next one. -/
def betweenKeys : List AesState → AesState → AesState
  | [], s => shiftRows (subBytes s)
  | _ :: _, s => (shiftRows (subBytes s)).map mixColumn

/-- What INVCIPHER does between the same two round keys. -/
def invBetweenKeys : List AesState → AesState → AesState
  | [], s => invSubBytes (invShiftRows s)
  | _ :: _, s => invSubBytes (invShiftRows (s.map invMixColumn))

theorem invBetweenKeys_betweenKeys (ks : List AesState) (s : AesState) : invBetweenKeys ks (betweenKeys ks s) = s := by
  cases ks with
  | nil => rw [betweenKeys, invBetweenKeys, invShiftRows_shiftRows, invSubBytes_subBytes]
  | cons k ks =>
    rw [betweenKeys, invBetweenKeys, AesState.map_map_cancel invMixColumn_mixColumn, invShiftRows_shiftRows,
      invSubBytes_subBytes]

theorem betweenKeys_invBetweenKeys (ks : List AesState) (s : AesState) : betweenKeys ks (invBetweenKeys ks s) = s := by
  cases ks with
  | nil => rw [betweenKeys, invBetweenKeys, subBytes_invSubBytes, shiftRows_invShiftRows]
  | cons k ks =>
    rw [betweenKeys, invBetweenKeys, subBytes_invSubBytes, shiftRows_invShiftRows,
      AesState.map_map_cancel mixColumn_invMixColumn]

theorem cipher_cons_cons (k k' : AesState) (ks : List AesState) (s : AesState) :
    cipher (k :: k' :: ks) s = cipher (k' :: ks) (betweenKeys ks (addRoundKey k s)) := by
  cases ks <;> rfl

theorem invCipherRounds_cons {ks : List AesState} (h : ks ≠ []) (k s : AesState) :
    invCipherRounds (k :: ks) s =
      invCipherRounds ks ((addRoundKey k (invSubBytes (invShiftRows s))).map invMixColumn) := by
  cases ks with
  | nil => exact absurd rfl h
  | cons _ _ => rfl

/-- One more key at the end of INVCIPHER's rounds: the round before it is no longer the last. -/
theorem invCipherRounds_append (ks : List AesState) (k' k s : AesState) :
    invCipherRounds (ks ++ [k', k]) s =
      addRoundKey k (invSubBytes (invShiftRows ((invCipherRounds (ks ++ [k']) s).map invMixColumn))) := by
  induction ks generalizing s with
  | nil => rfl
  | cons m ks ih => simp only [List.cons_append, invCipherRounds_cons (by simp : ks ++ _ :: _ ≠ []), ih]

theorem invCipher_of_reverse {ks rest : List AesState} {k : AesState} (h : ks.reverse = k :: rest) (s : AesState) :
    invCipher ks s = invCipherRounds rest (addRoundKey k s) := by
  simp only [invCipher, h]

theorem invCipher_cons_cons (k k' : AesState) (ks : List AesState) (s : AesState) :
    invCipher (k :: k' :: ks) s = addRoundKey k (invBetweenKeys ks (invCipher (k' :: ks) s)) := by
  rcases List.eq_nil_or_concat' ks with rfl | ⟨init, last, rfl⟩
  · rfl
  · have hlong : (k :: k' :: (init ++ [last])).reverse = last :: (init.reverse ++ [k', k]) := by simp
    have hshort : (k' :: (init ++ [last])).reverse = last :: (init.reverse ++ [k']) := by simp
    rw [invCipher_of_reverse hlong, invCipher_of_reverse hshort, invCipherRounds_append]
    cases init <;> rfl

theorem invCipher_cipher : ∀ (ks : List AesState) (s : AesState), invCipher ks (cipher ks s) = s
  | [], _ => rfl
  | [k], s => addRoundKey_addRoundKey k s
  | k :: k' :: ks, s => by
    rw [cipher_cons_cons, invCipher_cons_cons, invCipher_cipher (k' :: ks), invBetweenKeys_betweenKeys,
      addRoundKey_addRoundKey]

theorem cipher_invCipher : ∀ (ks : List AesState) (s : AesState), cipher ks (invCipher ks s) = s
  | [], _ => rfl
  | [k], s => addRoundKey_addRoundKey k s
  | k :: k' :: ks, s => by
    rw [cipher_cons_cons, invCipher_cons_cons, addRoundKey_addRoundKey, betweenKeys_invBetweenKeys,
      cipher_invCipher (k' :: ks)]

theorem fipsDec_fipsEnc (K : AesKey) (B : Block) : fipsDec K (fipsEnc K B) = B := by
  rw [fipsDec, fipsEnc, AesState.ofBlock_toBlock, invCipher_cipher, AesState.toBlock_ofBlock]

theorem fipsEnc_fipsDec (K : AesKey) (B : Block) : fipsEnc K (fipsDec K B) = B := by
  rw [fipsDec, fipsEnc, AesState.ofBlock_toBlock, cipher_invCipher, AesState.toBlock_ofBlock]

/-- Settles O19: CIPHER and INVCIPHER undo each other under any list of round keys, so under every key's schedule. -/
theorem aesPrimitiveObeysItsLaw : Obligations.AesPrimitiveObeysItsLaw := by
  unfold Obligations.AesPrimitiveObeysItsLaw
  exact fun K B => ⟨fipsDec_fipsEnc K B, fipsEnc_fipsDec K B⟩

end Sys2Proof.Machine
end

section
/-! Proofs for the AES wrapper, part 2: under which length codes it fails, and the error codes of its commands (rules
R121, R123 to R125, R181). -/

namespace Sys2Proof.Machine

theorem aesw_eq_none_iff {p : BlockCipher} {dir : AesDir} {raw : Vector Word 8} {code : BitVec 2} {B : Block} :
    aesw p dir raw code B = none ↔ code = 1#2 := by
  unfold aesw
  split <;> simp [*]

theorem code_eq_primFail_iff (e : ErrCode) : e.code = 0x3#4 ↔ e = .primFail := by
  cases e <;> decide

theorem keyVerdict_eq_primFail_iff {code : BitVec 2} : keyVerdict code = .primFail ↔ code = 1#2 := by
  revert code
  decide

/-- The XTS checks reject code 1 as INVALID_PARAM before any AES call (rules R123, R140). -/
theorem xtsVerdict_ne_primFail (s : State) : xtsVerdict s ≠ .primFail := by
  unfold xtsVerdict
  split_ifs <;> decide

theorem commandVerdict_eq_primFail {i : Instr} {s : State} (h : commandVerdict s i = .primFail) :
    ((i = .aesEncK1 ∨ i = .aesDecK1) ∧ s.k1len = 1#2) ∨
      ((i = .aesEncK2 ∨ i = .aesDecK2) ∧ s.k2len = 1#2) := by
  cases i with
  | xtsEnc | xtsDec => exact absurd h (xtsVerdict_ne_primFail s)
  | aesEncK1 => exact .inl ⟨.inl rfl, keyVerdict_eq_primFail_iff.mp h⟩
  | aesDecK1 => exact .inl ⟨.inr rfl, keyVerdict_eq_primFail_iff.mp h⟩
  | aesEncK2 => exact .inr ⟨.inl rfl, keyVerdict_eq_primFail_iff.mp h⟩
  | aesDecK2 => exact .inr ⟨.inr rfl, keyVerdict_eq_primFail_iff.mp h⟩
  | gfMulx => cases h

/-- Settles O11: ERR is the code of the command's verdict, and only the AES commands' verdict can be PRIM_FAIL. -/
theorem primFailExactlyForCodeOne : Obligations.PrimFailExactlyForCodeOne := by
  unfold Obligations.PrimFailExactlyForCodeOne
  refine ⟨fun _ _ _ _ _ => aesw_eq_none_iff, fun i s t hexec herr => commandVerdict_eq_primFail ?_⟩
  exact (code_eq_primFail_iff _).mp ((exec_err hexec).symm.trans herr)

/-- A command that is `aesCommand` completes by its selected key's code, and an error completion writes nothing (rules
R124, R125, R184). -/
theorem exec_rejects_keyCode {i : Instr} {s : State} {dir : AesDir} {k : Bool}
    (hexec : exec i s = .next (aesCommand aesPrimitive dir k s)) :
    ((selectedKey k s).2 = 3#2 → ∃ t, exec i s = .next t ∧ Completed .invalidParam 0 s t) ∧
      ((selectedKey k s).2 = 1#2 → ∃ t, exec i s = .next t ∧ Completed .primFail 0 s t) := by
  refine ⟨fun h => ⟨_, hexec, ?_⟩, fun h => ⟨_, hexec, ?_⟩⟩
  · rw [aesCommand_of_code_three h]
    exact completed_finishErr .invalidParam s
  · rw [aesCommand_of_code_one h]
    exact completed_finishErr .primFail s

/-- Settles O10, command by command: each is `aesCommand` in its direction under the key file that KEYSEL selects. -/
theorem aesKeyCodeVerdicts : Obligations.AesKeyCodeVerdicts := by
  unfold Obligations.AesKeyCodeVerdicts
  refine fun s => ⟨fun i hi => ?_, fun i hi => ?_⟩
  · rcases List.mem_pair.mp hi with rfl | rfl
    · exact exec_rejects_keyCode (dir := .enc) (k := false) rfl
    · exact exec_rejects_keyCode (dir := .dec) (k := false) rfl
  · rcases List.mem_pair.mp hi with rfl | rfl
    · exact exec_rejects_keyCode (dir := .enc) (k := true) rfl
    · exact exec_rejects_keyCode (dir := .dec) (k := true) rfl

end Sys2Proof.Machine
end

section
/-! Proofs for the XTS engine, part 1: the masked block transforms, a byte string read block by block, and the data
paths with their round trip, said once for both directions (rules R142 to R151). -/

namespace Sys2Proof.Machine

/-! ### The two directions -/

/-- The direction that undoes a direction (rule R120 (a)). -/
def AesDir.inverse : AesDir → AesDir
  | .enc => .dec
  | .dec => .enc

/-- `XE` and `XD` as one transform of the direction (`masked_enc`, `masked_dec`; rules R144, R145). -/
def masked (p : BlockCipher) (dir : AesDir) (K1 : AesKey) (B T : Block) : Block :=
  blockFunction p dir K1 (B ^^^ T) ^^^ T

theorem masked_enc (p : BlockCipher) (K1 : AesKey) : masked p .enc K1 = XE p K1 := rfl

theorem masked_dec (p : BlockCipher) (K1 : AesKey) : masked p .dec K1 = XD p K1 := rfl

theorem blockFunction_inverse {p : BlockCipher} (hp : p.Lawful) (dir : AesDir) (K : AesKey) (B : Block) :
    blockFunction p dir.inverse K (blockFunction p dir K B) = B := by
  obtain ⟨hdec, henc⟩ := hp K B
  cases dir
  · exact hdec
  · exact henc

/-- The mask of one transform cancels that of the other between the two calls of the primitive (rule R145). -/
theorem masked_inverse {p : BlockCipher} (hp : p.Lawful) (dir : AesDir) (K1 : AesKey) (B T : Block) :
    masked p dir.inverse K1 (masked p dir K1 B T) T = B := by
  rw [masked, masked, xor_cancel_right, blockFunction_inverse hp, xor_cancel_right]

/-- Settles O20. -/
theorem maskedTransformsAreInverse : Obligations.MaskedTransformsAreInverse := by
  unfold Obligations.MaskedTransformsAreInverse
  exact fun p hp K1 B T => ⟨rfl, masked_inverse hp .enc K1 B T, masked_inverse hp .dec K1 B T⟩

/-! ### A byte string, block by block -/

theorem blockBytes_blockAt {X : List Byte} {i : Nat} (h : 16 * i + 16 ≤ X.length) :
    blockBytes (blockAt X i) = sliceBytes X (16 * i) (16 * i + 16) :=
  blockBytes_blockOfBytes (by rw [sliceBytes_length]; omega)

theorem blockAt_append_left {A B : List Byte} {i : Nat} (h : 16 * i + 16 ≤ A.length) :
    blockAt (A ++ B) i = blockAt A i := by
  rw [blockAt, blockAt, sliceBytes, sliceBytes, List.take_append_of_le_length h]

theorem blockAt_append_block {A : List Byte} {i : Nat} (h : A.length = 16 * i) (C : Block) (B : List Byte) :
    blockAt (A ++ blockBytes C ++ B) i = C := by
  have hslice : sliceBytes (A ++ blockBytes C ++ B) (16 * i) (16 * i + 16) = blockBytes C := by
    rw [sliceBytes, List.take_left' (by simp [h]), List.drop_left' h]
  rw [blockAt, hslice, blockOfBytes_blockBytes]

theorem blockAt_maskedBlocks (f : Block → Block → Block) (T0 : Block) (X : List Byte) {count i : Nat}
    (hi : i < count) : blockAt (maskedBlocks f count T0 X) i = f (blockAt X i) (mulxPow i T0) := by
  rw [blockAt, sliceBytes_maskedBlocks f count T0 X i hi, blockOfBytes_blockBytes]

theorem take_eq_of_blockAt_eq {X Y : List Byte} {full : Nat} (hX : 16 * full ≤ X.length) (hY : 16 * full ≤ Y.length)
    (h : ∀ i < full, blockAt X i = blockAt Y i) : X.take (16 * full) = Y.take (16 * full) := by
  induction full with
  | zero => rfl
  | succ c ih =>
    have hslice : sliceBytes X (16 * c) (16 * c + 16) = sliceBytes Y (16 * c) (16 * c + 16) := by
      rw [← blockBytes_blockAt (by omega), ← blockBytes_blockAt (by omega), h c c.lt_succ_self]
    have hsplit : ∀ S : List Byte,
        S.take (16 * (c + 1)) = S.take (16 * c) ++ sliceBytes S (16 * c) (16 * c + 16) := by
      intro S
      rw [sliceBytes, List.drop_take, Nat.add_sub_cancel_left, Nat.mul_succ, List.take_add]
    rw [hsplit, hsplit, hslice, ih (by omega) (by omega) fun i hi => h i (by omega)]

/-- A byte string is its full blocks and what follows them (rule R143). -/
theorem eq_of_blockAt_eq {X Y : List Byte} {full : Nat} (hX : 16 * full ≤ X.length) (hY : 16 * full ≤ Y.length)
    (hblocks : ∀ i < full, blockAt X i = blockAt Y i) (htail : X.drop (16 * full) = Y.drop (16 * full)) : X = Y := by
  rw [← X.take_append_drop (16 * full), ← Y.take_append_drop (16 * full), htail,
    take_eq_of_blockAt_eq hX hY hblocks]

/-! ### Ciphertext stealing, both directions as one path -/

/-- The tweak index of the block that is transformed first: `full-1` for encryption, `full` for decryption (rules
R147, R149).  The block transformed second has the index of the other direction. -/
def stealIndex : AesDir → Nat → Nat
  | .enc, full => full - 1
  | .dec, full => full

/-- The partial block, filled up to 16 bytes with the tail of the block transformed first: `PP` of rule R147 and `CC`
of rule R149 (`encSteal_eq_stealPath`, `decSteal_eq_stealPath`). -/
def stealFill (full rem : Nat) (X : List Byte) (first : Block) : Block :=
  blockOfBytes (X.drop (16 * full) ++ (blockBytes first).drop rem)

/-- The stealing path of a transform `f` that masks the last full block with `U` and the filled block with `V` (rules
R147, R149). -/
def stealPath (f : Block → Block → Block) (U V : Block) (full rem : Nat) (T0 : Block) (X : List Byte) : List Byte :=
  maskedBlocks f (full - 1) T0 X
    ++ blockBytes (f (stealFill full rem X (f (blockAt X (full - 1)) U)) V)
    ++ (blockBytes (f (blockAt X (full - 1)) U)).take rem

theorem encSteal_eq_stealPath (p : BlockCipher) (K1 : AesKey) (T0 : Block) (full rem : Nat) (X : List Byte) :
    encSteal p K1 T0 full rem X =
      stealPath (XE p K1) (mulxPow (full - 1) T0) (mulxPow full T0) full rem T0 X := rfl

theorem decSteal_eq_stealPath (p : BlockCipher) (K1 : AesKey) (T0 : Block) (full rem : Nat) (X : List Byte) :
    decSteal p K1 T0 full rem X =
      stealPath (XD p K1) (mulxPow full T0) (mulxPow (full - 1) T0) full rem T0 X := rfl

section StealPath
variable (f : Block → Block → Block) (U V T0 : Block) (X : List Byte) {full rem : Nat}

theorem stealPath_length (hfull : 0 < full) (hrem : rem ≤ 16) :
    (stealPath f U V full rem T0 X).length = 16 * full + rem := by
  simp only [stealPath, List.length_append, maskedBlocks_length, blockBytes_length, List.length_take]
  omega

theorem blockAt_stealPath {i : Nat} (hi : i < full - 1) :
    blockAt (stealPath f U V full rem T0 X) i = f (blockAt X i) (mulxPow i T0) := by
  rw [stealPath, List.append_assoc, blockAt_append_left (by rw [maskedBlocks_length]; omega),
    blockAt_maskedBlocks f T0 X hi]

theorem blockAt_stealPath_last :
    blockAt (stealPath f U V full rem T0 X) (full - 1) =
      f (stealFill full rem X (f (blockAt X (full - 1)) U)) V :=
  blockAt_append_block (maskedBlocks_length ..) _ _

theorem drop_stealPath (hfull : 0 < full) :
    (stealPath f U V full rem T0 X).drop (16 * full) = (blockBytes (f (blockAt X (full - 1)) U)).take rem :=
  List.drop_left' (by simp only [List.length_append, maskedBlocks_length, blockBytes_length]; omega)

end StealPath

section StealFill
variable {X : List Byte} {full rem : Nat} (hX : X.length = 16 * full + rem) (hrem : rem ≤ 16) (C : Block)
include hX hrem

theorem blockBytes_stealFill :
    blockBytes (stealFill full rem X C) = X.drop (16 * full) ++ (blockBytes C).drop rem :=
  blockBytes_blockOfBytes (by simp only [List.length_append, List.length_drop, blockBytes_length]; omega)

theorem take_blockBytes_stealFill : (blockBytes (stealFill full rem X C)).take rem = X.drop (16 * full) := by
  rw [blockBytes_stealFill hX hrem, List.take_left' (by rw [List.length_drop]; omega)]

theorem drop_blockBytes_stealFill : (blockBytes (stealFill full rem X C)).drop rem = (blockBytes C).drop rem := by
  rw [blockBytes_stealFill hX hrem, List.drop_left' (by rw [List.length_drop]; omega)]

end StealFill

/-! ### The round trip of each path -/

section RoundTrip
variable {f g : Block → Block → Block} (hfg : ∀ B T, g (f B T) T = B) (T0 : Block)
  {X : List Byte} {full rem : Nat}
include hfg

/-- Whole blocks: each block has one tweak, the same in both directions (rules R146, R148). -/
theorem maskedBlocks_undo (hX : X.length = 16 * full) :
    maskedBlocks g full T0 (maskedBlocks f full T0 X) = X := by
  refine eq_of_blockAt_eq (full := full) (by rw [maskedBlocks_length]) hX.ge (fun i hi => ?_) ?_
  · rw [blockAt_maskedBlocks g T0 _ hi, blockAt_maskedBlocks f T0 X hi, hfg]
  · rw [List.drop_eq_nil_of_le (by rw [maskedBlocks_length]), List.drop_eq_nil_of_le hX.le]

/-- Stealing: with the masks in the other order, the block transformed first is the filled block of the other path,
whose tail completes the stolen head to the block that path transformed first (rules R147, R149). -/
theorem stealPath_undo (U V : Block) (hX : X.length = 16 * full + rem) (hfull : 0 < full) (hrem : rem ≤ 16) :
    stealPath g V U full rem T0 (stealPath f U V full rem T0 X) = X := by
  set C := f (blockAt X (full - 1)) U with hC
  set Y := stealPath f U V full rem T0 X with hY
  have hfirst : g (blockAt Y (full - 1)) V = stealFill full rem X C := by
    rw [hY, blockAt_stealPath_last, hfg]
  have hfill : stealFill full rem Y (stealFill full rem X C) = C := by
    rw [stealFill, drop_blockBytes_stealFill hX hrem, hY, drop_stealPath f U V T0 X hfull, ← hC,
      List.take_append_drop, blockOfBytes_blockBytes]
  refine eq_of_blockAt_eq (full := full) (by rw [stealPath_length g V U T0 Y hfull hrem]; omega) (by omega)
    (fun i hi => ?_) ?_
  · rcases Nat.lt_or_eq_of_le (Nat.le_sub_one_of_lt hi) with hlt | rfl
    · rw [blockAt_stealPath g V U T0 Y hlt, hY, blockAt_stealPath f U V T0 X hlt, hfg]
    · rw [blockAt_stealPath_last, hfirst, hfill, hC, hfg]
  · rw [drop_stealPath g V U T0 Y hfull, hfirst, take_blockBytes_stealFill hX hrem]

end RoundTrip

/-! ### The data path of a direction -/

section Transform
variable (p : BlockCipher) (dir : AesDir) (K1 : AesKey) (T0 : Block) {X : List Byte}

theorem xtsTransform_whole (h : X.length % 16 = 0) :
    xtsTransform p dir K1 T0 X = maskedBlocks (masked p dir K1) (X.length / 16) T0 X := by
  cases dir
  · simp only [xtsTransform, xtsEncrypt, partition, if_pos h, masked_enc]
  · simp only [xtsTransform, xtsDecrypt, partition, if_pos h, masked_dec]

theorem xtsTransform_stealing (h : X.length % 16 ≠ 0) :
    xtsTransform p dir K1 T0 X =
      stealPath (masked p dir K1) (mulxPow (stealIndex dir (X.length / 16)) T0)
        (mulxPow (stealIndex dir.inverse (X.length / 16)) T0) (X.length / 16) (X.length % 16) T0 X := by
  cases dir
  · simp only [xtsTransform, xtsEncrypt, partition, if_neg h, encSteal_eq_stealPath, masked_enc,
      AesDir.inverse, stealIndex]
  · simp only [xtsTransform, xtsDecrypt, partition, if_neg h, decSteal_eq_stealPath, masked_dec,
      AesDir.inverse, stealIndex]

end Transform

theorem stealIndex_inverse_inverse (dir : AesDir) (full : Nat) :
    stealIndex dir.inverse.inverse full = stealIndex dir full := by
  cases dir <;> rfl

/-- Rule R151: the other direction undoes a direction, on the variant that the length selects (rule R153). -/
theorem xtsTransform_inverse {p : BlockCipher} (hp : p.Lawful) (dir : AesDir) (K1 : AesKey) (T0 : Block)
    {X : List Byte} (h : 16 ≤ X.length) :
    xtsTransform p dir.inverse K1 T0 (xtsTransform p dir K1 T0 X) = X := by
  have hlen := xtsTransform_length p dir K1 T0 X h
  have hfg := masked_inverse hp dir K1
  by_cases hrem : X.length % 16 = 0
  · rw [xtsTransform_whole p dir.inverse K1 T0 (hlen.symm ▸ hrem), hlen, xtsTransform_whole p dir K1 T0 hrem]
    exact maskedBlocks_undo hfg T0 (by omega)
  · rw [xtsTransform_stealing p dir.inverse K1 T0 (hlen.symm ▸ hrem), hlen, stealIndex_inverse_inverse,
      xtsTransform_stealing p dir K1 T0 hrem]
    exact stealPath_undo hfg T0 _ _ (by omega) (by omega) (by omega)

/-- Settles O17. -/
theorem xtsRoundTrip : Obligations.XtsRoundTrip := by
  unfold Obligations.XtsRoundTrip
  exact fun p hp K1 T0 X h => ⟨xtsTransform_inverse hp .enc K1 T0 h, xtsTransform_inverse hp .dec K1 T0 h⟩

end Sys2Proof.Machine
end

section
/-! Proofs for the XTS engine, part 2: the two commands on the state they read, their checks, and the round trip on the
machine (rules R140, R141, R146 to R151, R158, R159). -/

namespace Sys2Proof.Machine

/-! ### The commands and their checks -/

/-- The XTS command of a direction and of the other one (rules R158, R159). -/
theorem exec_xts_pair {i j : Instr} (h : (i = .xtsEnc ∧ j = .xtsDec) ∨ (i = .xtsDec ∧ j = .xtsEnc)) :
    ∃ dir : AesDir, (∀ s, exec i s = .next (xtsCommand aesPrimitive dir s)) ∧
      ∀ s, exec j s = .next (xtsCommand aesPrimitive dir.inverse s) := by
  rcases h with ⟨rfl, rfl⟩ | ⟨rfl, rfl⟩
  · exact ⟨.enc, fun _ => rfl, fun _ => rfl⟩
  · exact ⟨.dec, fun _ => rfl, fun _ => rfl⟩

theorem exec_xts {i : Instr} (h : i = .xtsEnc ∨ i = .xtsDec) :
    ∃ dir : AesDir, ∀ s, exec i s = .next (xtsCommand aesPrimitive dir s) := by
  rcases h with rfl | rfl
  · exact ⟨.enc, fun _ => rfl⟩
  · exact ⟨.dec, fun _ => rfl⟩

/-- A rejected command is its verdict's error completion, in which no primitive occurs (rule R140). -/
theorem xtsCommand_of_verdict {s : State} (h : xtsVerdict s ≠ .ok) (p : BlockCipher) (dir : AesDir) :
    xtsCommand p dir s = finishErr (xtsVerdict s) s := by
  rw [xtsCommand_of_rejected (by rwa [xtsCheck_eq_xtsVerdict]), xtsCheck_eq_xtsVerdict]

/-- Settles O16. -/
theorem xtsChecksInOrder : Obligations.XtsChecksInOrder := by
  unfold Obligations.XtsChecksInOrder
  intro s i hi
  obtain ⟨dir, hexec⟩ := exec_xts hi
  refine ⟨_, hexec s, xtsCommand_err aesPrimitive dir s, fun h => ⟨?_, fun p q d => ?_⟩⟩
  · rw [xtsCommand_of_verdict h]
    exact completed_finishErr (xtsVerdict s) s
  · rw [xtsCommand_of_verdict h p d, xtsCommand_of_verdict h q d]

/-- Rule R140 accepted the registers of an XTS command that completed with OK. -/
theorem xtsAccepts_of_err {p : BlockCipher} {dir : AesDir} {s : State} (h : (xtsCommand p dir s).err = 0x0#4) :
    XtsAccepts s := by
  rw [xtsCommand_err, code_eq_zero_iff, ← xtsCheck_eq_xtsVerdict, xtsCheck_ok_iff] at h
  obtain ⟨hcode, heq, hlo, hhi⟩ := h
  exact ⟨hcode, heq.symm, hlo, hhi⟩

/-! ### What an accepted command writes -/

/-- The data path of a direction on DIN, in the terms of the statements (`xtsCommand_of_xtsAccepts`). -/
def xtsOutput (dir : AesDir) (s : State) : List Byte :=
  xtsTransform aesPrimitive dir (dataKey s) (firstTweak s) (dinBytes s s.len.toNat)

theorem xtsOutput_length {s : State} (h : XtsAccepts s) (dir : AesDir) : (xtsOutput dir s).length = s.len.toNat := by
  obtain ⟨-, -, hlo, -⟩ := h
  rw [xtsOutput, xtsTransform_length _ _ _ _ _ (by rwa [dinBytes_length]), dinBytes_length]

theorem xtsCommand_of_xtsAccepts {s : State} (h : XtsAccepts s) (dir : AesDir) :
    xtsCommand aesPrimitive dir s = finishOk (xtsOutput dir s) 0 s := by
  rw [xtsCommand_of_accepted (xtsCheck_of_accepts s h), aesKey_eq_keyPrefix, initialTweak_eq_firstTweak]
  rfl

theorem completed_xtsCommand {s : State} (h : XtsAccepts s) (dir : AesDir) :
    Completed .ok s.len.toNat s (xtsCommand aesPrimitive dir s) := by
  rw [xtsCommand_of_xtsAccepts h, ← xtsOutput_length h dir]
  exact completed_finishOk _ s

theorem doutBytes_xtsCommand {s : State} (h : XtsAccepts s) (dir : AesDir) :
    doutBytes (xtsCommand aesPrimitive dir s) s.len.toNat = xtsOutput dir s := by
  rw [xtsCommand_of_xtsAccepts h, ← xtsOutput_length h dir]
  exact doutBytes_finishOk _ s

/-- Settles O21: the lengths are those of the data paths, and a completion with OK is the write of one output. -/
theorem xtsPreservesLength : Obligations.XtsPreservesLength := by
  unfold Obligations.XtsPreservesLength
  refine ⟨fun p K1 T0 X h => ⟨xtsEncrypt_length p K1 T0 X h, xtsDecrypt_length p K1 T0 X h⟩, ?_⟩
  intro i s t hi ht herr
  obtain ⟨dir, hexec⟩ := exec_xts hi
  obtain rfl := Host.Outcome.next.inj ((hexec s).symm.trans ht)
  have hacc := xtsAccepts_of_err herr
  refine ⟨⟨xtsOutput dir s, xtsOutput_length hacc dir, doutBytes_xtsCommand hacc dir, ?_⟩,
    (completed_xtsCommand hacc dir).memory⟩
  rw [xtsCommand_of_xtsAccepts hacc]
  rfl

/-! ### The output block by block -/

theorem doutBlockAt_xtsCommand {s : State} (h : XtsAccepts s) (dir : AesDir) {i : Nat} (hi : i < s.len.toNat / 16) :
    doutBlockAt (xtsCommand aesPrimitive dir s) i = blockAt (xtsOutput dir s) i := by
  have hlen := xtsOutput_length h dir
  rw [xtsCommand_of_xtsAccepts h, doutBlockAt, readBytes_finishOk _ _ _ _ (by omega), blockAt]

theorem readBytes_dout_tail_xtsCommand {s : State} (h : XtsAccepts s) (dir : AesDir) :
    readBytes (xtsCommand aesPrimitive dir s) (DOUT + 16 * (s.len.toNat / 16)) (s.len.toNat % 16) =
      (xtsOutput dir s).drop (16 * (s.len.toNat / 16)) := by
  have hlen := xtsOutput_length h dir
  rw [xtsCommand_of_xtsAccepts h, readBytes_finishOk _ _ _ _ (by omega), sliceBytes, List.take_of_length_le (by omega)]

theorem drop_dinBytes (s : State) (n : Nat) :
    (dinBytes s n).drop (16 * (n / 16)) = readBytes s (DIN + 16 * (n / 16)) (n % 16) := by
  have hslice := sliceBytes_readBytes s DIN n (16 * (n / 16)) n le_rfl
  rw [sliceBytes, List.take_of_length_le (by rw [readBytes_length]), show n - 16 * (n / 16) = n % 16 by omega] at hslice
  exact hslice

theorem xtsOutput_whole {s : State} (h : s.len.toNat % 16 = 0) (dir : AesDir) :
    xtsOutput dir s =
      maskedBlocks (masked aesPrimitive dir (dataKey s)) (s.len.toNat / 16) (firstTweak s)
        (dinBytes s s.len.toNat) := by
  rw [xtsOutput, xtsTransform_whole _ _ _ _ (by rwa [dinBytes_length]), dinBytes_length]

theorem xtsOutput_stealing {s : State} (h : s.len.toNat % 16 ≠ 0) (dir : AesDir) :
    xtsOutput dir s =
      stealPath (masked aesPrimitive dir (dataKey s)) (tweakAt s (stealIndex dir (s.len.toNat / 16)))
        (tweakAt s (stealIndex dir.inverse (s.len.toNat / 16))) (s.len.toNat / 16) (s.len.toNat % 16) (firstTweak s)
        (dinBytes s s.len.toNat) := by
  rw [xtsOutput, xtsTransform_stealing _ _ _ _ (by rwa [dinBytes_length]), dinBytes_length]
  rfl

/-- Rules R146 and R148. -/
theorem xtsCommand_whole {s : State} (h : XtsAccepts s) (hrem : s.len.toNat % 16 = 0) (dir : AesDir) :
    Completed .ok s.len.toNat s (xtsCommand aesPrimitive dir s) ∧
      ∀ i < s.len.toNat / 16, doutBlockAt (xtsCommand aesPrimitive dir s) i =
        masked aesPrimitive dir (dataKey s) (dinBlockAt s i) (tweakAt s i) := by
  refine ⟨completed_xtsCommand h dir, fun i hi => ?_⟩
  rw [doutBlockAt_xtsCommand h dir hi, xtsOutput_whole hrem, blockAt_maskedBlocks _ _ _ hi,
    blockAt_dinBytes _ _ _ (by omega), tweakAt]

/-- The block of a stealing data unit that is transformed first: `CC` of rule R147 and `PP` of rule R149. -/
def stealFirst (dir : AesDir) (s : State) : Block :=
  masked aesPrimitive dir (dataKey s) (dinBlockAt s (s.len.toNat / 16 - 1))
    (tweakAt s (stealIndex dir (s.len.toNat / 16)))

/-- The block transformed second: `PP` of rule R147 and `CC` of rule R149. -/
def stealSecond (dir : AesDir) (s : State) : Block :=
  blockOfBytes (readBytes s (DIN + 16 * (s.len.toNat / 16)) (s.len.toNat % 16) ++
    (blockBytes (stealFirst dir s)).drop (s.len.toNat % 16))

/-- Rules R147 and R149. -/
theorem xtsCommand_stealing {s : State} (h : XtsAccepts s) (hrem : s.len.toNat % 16 ≠ 0) (dir : AesDir) :
    Completed .ok s.len.toNat s (xtsCommand aesPrimitive dir s) ∧
      (∀ i < s.len.toNat / 16 - 1, doutBlockAt (xtsCommand aesPrimitive dir s) i =
        masked aesPrimitive dir (dataKey s) (dinBlockAt s i) (tweakAt s i)) ∧
      doutBlockAt (xtsCommand aesPrimitive dir s) (s.len.toNat / 16 - 1) =
        masked aesPrimitive dir (dataKey s) (stealSecond dir s)
          (tweakAt s (stealIndex dir.inverse (s.len.toNat / 16))) ∧
      readBytes (xtsCommand aesPrimitive dir s) (DOUT + 16 * (s.len.toNat / 16)) (s.len.toNat % 16) =
        (blockBytes (stealFirst dir s)).take (s.len.toNat % 16) := by
  have hfull : 0 < s.len.toNat / 16 := by
    obtain ⟨-, -, hlo, -⟩ := h
    omega
  have hlast : blockAt (dinBytes s s.len.toNat) (s.len.toNat / 16 - 1) = dinBlockAt s (s.len.toNat / 16 - 1) :=
    blockAt_dinBytes _ _ _ (by omega)
  refine ⟨completed_xtsCommand h dir, fun i hi => ?_, ?_, ?_⟩
  · rw [doutBlockAt_xtsCommand h dir (by omega), xtsOutput_stealing hrem, blockAt_stealPath _ _ _ _ _ hi,
      blockAt_dinBytes _ _ _ (by omega), tweakAt]
  · rw [doutBlockAt_xtsCommand h dir (by omega), xtsOutput_stealing hrem, blockAt_stealPath_last, hlast, stealFill,
      drop_dinBytes, stealSecond, stealFirst]
  · rw [readBytes_dout_tail_xtsCommand h dir, xtsOutput_stealing hrem, drop_stealPath _ _ _ _ _ hfull, hlast,
      stealFirst]

/-- Settles O12. -/
theorem xtsEncWholeBlocks : Obligations.XtsEncWholeBlocks := by
  unfold Obligations.XtsEncWholeBlocks
  exact fun s h hrem => ⟨_, rfl, xtsCommand_whole h hrem .enc⟩

/-- Settles O14. -/
theorem xtsDecWholeBlocks : Obligations.XtsDecWholeBlocks := by
  unfold Obligations.XtsDecWholeBlocks
  exact fun s h hrem => ⟨_, rfl, xtsCommand_whole h hrem .dec⟩

/-- Settles O13: `CC` is `stealFirst .enc` and `PP` is `stealSecond .enc`. -/
theorem xtsEncStealing : Obligations.XtsEncStealing := by
  unfold Obligations.XtsEncStealing
  exact fun s h hrem => ⟨_, rfl, xtsCommand_stealing h hrem .enc⟩

/-- Settles O15: `PP` is `stealFirst .dec` and `CC` is `stealSecond .dec`. -/
theorem xtsDecStealing : Obligations.XtsDecStealing := by
  unfold Obligations.XtsDecStealing
  exact fun s h hrem => ⟨_, rfl, xtsCommand_stealing h hrem .dec⟩

/-! ### The round trip on the machine -/

theorem dinBytes_eq_doutBytes {t u : State} {n : Nat}
    (h : ∀ k < n, readByte u (DIN + k) = readByte t (DOUT + k)) : dinBytes u n = doutBytes t n := by
  apply List.ext_getElem (by simp [doutBytes])
  intro k hk _
  simp only [dinBytes, doutBytes, readBytes_getElem]
  exact h k (by simpa using hk)

/-- The data path of the other direction, on the output of this one under the same key and first tweak, gives
the input of this one (rule R151). -/
theorem xtsOutput_inverse {s u : State} (h : XtsAccepts s) {dir : AesDir} (hkey : dataKey u = dataKey s)
    (htweak : firstTweak u = firstTweak s) (hdin : dinBytes u u.len.toNat = xtsOutput dir s) :
    xtsOutput dir.inverse u = dinBytes s s.len.toNat := by
  obtain ⟨-, -, hlo, -⟩ := h
  rw [xtsOutput, hkey, htweak, hdin, xtsOutput]
  exact xtsTransform_inverse aesPrimitiveObeysItsLaw dir _ _ (by rwa [dinBytes_length])

/-- Settles O18: DIN of the second command is the first one's output, and the data paths undo each other. -/
theorem xtsMachineRoundTrip : Obligations.XtsMachineRoundTrip := by
  unfold Obligations.XtsMachineRoundTrip
  intro i j hij s t u v ht herr hk1 hk2 hkey1 hkey2 htweak hlen hdu hcopy hv
  obtain ⟨dir, hi, hj⟩ := exec_xts_pair hij
  obtain rfl := Host.Outcome.next.inj ((hi s).symm.trans ht)
  obtain rfl := Host.Outcome.next.inj ((hj u).symm.trans hv)
  have hs := xtsAccepts_of_err herr
  have hu : XtsAccepts u := by
    rw [XtsAccepts, hk1, hk2, hlen, hdu]
    exact hs
  have hdin : dinBytes u u.len.toNat = xtsOutput dir s := by
    rw [hlen, dinBytes_eq_doutBytes hcopy, doutBytes_xtsCommand hs]
  have hout : xtsOutput dir.inverse u = dinBytes s s.len.toNat := by
    refine xtsOutput_inverse hs ?_ ?_ hdin
    · rw [dataKey, dataKey, hkey1, hk1]
    · rw [firstTweak, firstTweak, tweakValue, tweakValue, hkey2, hk2, htweak]
  refine ⟨(completed_xtsCommand hu dir.inverse).err, fun k hk => ?_⟩
  have hk' : k < (dinBytes s s.len.toNat).length := by rwa [dinBytes_length]
  rw [xtsCommand_of_xtsAccepts hu, hout]
  exact (readByte_finishOk _ 0 u k hk').trans (readBytes_getElem s DIN _ k hk')

end Sys2Proof.Machine
end

section
/-! Proofs for the exceptions: what the code of a completion depends on and what a completion changes (rules R183, R184,
R186), the CMD write that is dropped (rule R187), and the interrupt line (rules R190, R191). -/

namespace Sys2Proof.Machine

/-! ### What the code of a completion depends on -/

theorem xtsVerdict_congr {s u : State} (h1 : u.k1len = s.k1len) (h2 : u.k2len = s.k2len) (hlen : u.len = s.len)
    (hdu : u.duMax = s.duMax) : xtsVerdict u = xtsVerdict s := by
  simp only [xtsVerdict, h1, h2, hlen, hdu]

/-- The code is a function of the command word, the length codes, LEN and `P_DU_MAX` (rules R181, R186). -/
theorem completionCode_congr {s u : State} (hcmd : u.hidCmd = s.hidCmd) (h1 : u.k1len = s.k1len)
    (h2 : u.k2len = s.k2len) (hlen : u.len = s.len) (hdu : u.duMax = s.duMax) :
    completionCode u = completionCode s := by
  simp only [completionCode, hcmd, h1, h2, xtsVerdict_congr h1 h2 hlen hdu]

theorem latency_congr {s u : State} (hcmd : u.hidCmd = s.hidCmd) (h1 : u.k1len = s.k1len) (h2 : u.k2len = s.k2len)
    (hlen : u.len = s.len) : u.latency = s.latency := by
  simp only [State.latency, hcmd, h1, h2, hlen]

/-- Settles O24: both completions write their `completionCode`, which no key, tweak or data byte enters. -/
theorem errorsRevealNothingSecret : Obligations.ErrorsRevealNothingSecret := by
  unfold Obligations.ErrorsRevealNothingSecret
  intro s u hcmd h1 h2 hlen hdu
  obtain ⟨t, ht⟩ := completionStep_ends s
  obtain ⟨v, hv⟩ := completionStep_ends u
  refine ⟨latency_congr hcmd h1 h2 hlen, t, v, ht, hv, ?_⟩
  rw [completionStep_err ht, completionStep_err hv, completionCode_congr hcmd h1 h2 hlen hdu]

/-! ### What a completion changes -/

/-- Settles O25: a completion step has a next state, and the frame of `Completed` holds of it. -/
theorem completionStepFinishes : Obligations.CompletionStepFinishes := by
  unfold Obligations.CompletionStepFinishes
  intro s
  obtain ⟨t, ht⟩ := completionStep_ends s
  obtain ⟨e, n, hn, herr, hcomp⟩ := completionStep_completed ht
  exact ⟨t, e, n, ht, hcomp, hn, herr⟩

/-- Settles O26: with a code other than OK the length of the write is 0, so its frame is every byte. -/
theorem errorCompletionWritesNothing : Obligations.ErrorCompletionWritesNothing := by
  unfold Obligations.ErrorCompletionWritesNothing
  intro s t ht hne
  obtain ⟨e, n, -, herr, hcomp⟩ := completionStep_completed ht
  have he : e ≠ .ok := fun h => hne (hcomp.err.trans ((code_eq_zero_iff e).mpr h))
  obtain rfl : n = 0 := herr he
  exact ⟨fun a => hcomp.memory a (Nat.lt_or_ge a DOUT), hcomp.inputs, hcomp.hidCmd⟩

/-! ### The dropped CMD write -/

/-- Settles O36: the dropped write is rule R30's, and CMD_LOST does not enter the interrupt line. -/
theorem cmdWriteWhileBusyIsDropped : Obligations.CmdWriteWhileBusyIsDropped := by
  unfold Obligations.CmdWriteWhileBusyIsDropped
  intro v s hb
  obtain ⟨-, hdropped, -⟩ := cmdWriteIsAcceptedOrDropped v s
  have hw := hdropped hb
  exact ⟨hw, (congrArg State.irq hw).trans rfl⟩

/-! ### The interrupt line -/

theorem irq_eq_true_iff (s : State) : s.irq = true ↔ s.done = true ∧ s.ie = true :=
  Bool.and_eq_true_iff

theorem irq_eq_false_of_done {s : State} (h : ¬s.done = true) : s.irq = false := by
  rw [← Bool.not_eq_true, irq_eq_true_iff]
  exact fun ⟨hdone, _⟩ => h hdone

/-- A CFG write while BUSY = 0 leaves the interrupt line to DONE and bit 8 of the word (rules R31, R190). -/
theorem irq_busWrite_cfg {s : State} (hb : s.busy = false) (v : Word) :
    (busWrite 0x000C v s).irq = (s.done && v.getLsbD 8) := by
  rw [busWrite_cfg, writeInput_idle hb, State.irq, writeCfg_done, writeCfg_ie]

/-- Settles O48: a completion of any code raises DONE and keeps IE; a CFG write keeps DONE and stores IE. -/
theorem interruptIsDoneAndEnable : Obligations.InterruptIsDoneAndEnable := by
  unfold Obligations.InterruptIsDoneAndEnable
  refine ⟨irq_eq_true_iff, fun s t hie ht => ?_, fun v s hb hdone hbit => ?_⟩
  · obtain ⟨e, n, -, -, hcomp⟩ := completionStep_completed ht
    exact (irq_eq_true_iff t).mpr ⟨hcomp.done, hcomp.inputs.ie.trans hie⟩
  · rw [irq_busWrite_cfg hb, hdone, hbit, Bool.and_self]

/-- Settles O49: the STATUS write and the acceptance lower DONE, the CFG write lowers IE, reset lowers both, and a
read changes neither. -/
theorem interruptClears : Obligations.InterruptClears := by
  unfold Obligations.InterruptClears
  refine ⟨fun v s hbit => irq_eq_false_of_done fun hdone => ?_, fun v s hb => irq_eq_false_of_done fun hdone => ?_,
    fun v s hb hbit => ?_, fun s => ⟨irq_eq_false_of_done (by simp), ?_⟩⟩
  · obtain ⟨-, hnotAcked, -⟩ := (busWrite_done_iff 0x0004 v s).mp hdone
    exact hnotAcked ⟨rfl, hbit⟩
  · obtain ⟨-, -, hnotAccepted⟩ := (busWrite_done_iff 0x0008 v s).mp hdone
    exact hnotAccepted ⟨rfl, hb⟩
  · rw [irq_busWrite_cfg hb, hbit, Bool.and_false]
  · obtain ⟨n, hn⟩ := busRead_eq 0x0004 s
    rw [hn]
    rfl

end Sys2Proof.Machine
end

section
/-! Proofs for the reset input and the hazards: every accepted operation completes (rule R227), the reset input (rules
R210, R211), and host accesses while BUSY = 1 (rules R222, R224, R225). -/

namespace Sys2Proof.Machine

/-! ### Which programs are well-formed -/

theorem HostProgram.wellFormed_append (p q : HostProgram) :
    (p.append q).wellFormed = (p.wellFormed && q.wellFormed) := by
  induction p with
  | done => rfl
  | wr off v rest ih | rd off e rest ih | poll off m v rest ih | bus a rest ih | rep n body rest _ ih =>
    simp only [HostProgram.append, HostProgram.wellFormed, ih, Bool.and_assoc]

/-- An access that rule R61 allows is in the window and aligned; `access_wellFormed` is the converse. -/
theorem access_bounds {a : Access} (h : a.wellFormed = true) : a.off < Config.P_WINDOW ∧ a.off % 4 = 0 := by
  simp only [Access.wellFormed, Access.widthOk, Access.aligned, Access.inWindow, Bool.and_eq_true, beq_iff_eq,
    decide_eq_true_eq] at h
  obtain ⟨⟨-, halign⟩, hin⟩ := h
  exact ⟨hin, halign⟩

/-! ### The host's turn under a well-formed program -/

/-- No host write reaches the host's own fields, the schedule or the counters (rule R15). -/
theorem sameHost_busWrite (off : Nat) (v : Word) (s : State) : SameHost s (busWrite off v s) := by
  rcases busWrite_cases off v s with h | ⟨-, h⟩ | ⟨-, -, h⟩ | ⟨-, -, h⟩ | ⟨-, h⟩ |
    ⟨-, ⟨-, h⟩ | ⟨-, h⟩ | ⟨j, -, h⟩ | ⟨j, -, h⟩ | ⟨j, -, h⟩ | ⟨-, h⟩⟩ <;>
    rw [h] <;> exact ⟨rfl, rfl, rfl, rfl, rfl, rfl⟩

@[simp] theorem busWrite_program (off : Nat) (v : Word) (s : State) : (busWrite off v s).program = s.program :=
  (sameHost_busWrite off v s).program

@[simp] theorem busRead_program (off : Nat) (s : State) : (busRead off s).program = s.program := by
  obtain ⟨n, hn⟩ := busRead_eq off s
  rw [hn]

@[simp] theorem noteExpected_program (e : Option Word) (s : State) : (noteExpected e s).program = s.program := by
  obtain ⟨b, hb⟩ := noteExpected_eq e s
  rw [hb]

/-- A host without statements does nothing (log entry 6). -/
theorem hostTurn_of_done {s : State} (h : s.program = .done) : hostTurn s = .next s := by
  simp only [hostTurn, h]

/-- The host's turn leaves the schedule alone. -/
theorem hostTurn_turns {s t : State} (h : hostTurn s = .next t) : t.turns = s.turns := by
  rcases hostTurn_idle_or_write h with ⟨p, l, m, n, rfl⟩ | ⟨p, off, v, rfl⟩
  · rfl
  · exact (sameHost_busWrite off v { s with program := p }).turns

/-- A well-formed program never stops the host, and what is left of it is well-formed (rules R61, R62). -/
theorem hostTurn_of_wellFormed {s : State} (h : s.program.wellFormed = true) :
    ∃ t, hostTurn s = .next t ∧ t.program.wellFormed = true := by
  cases hp : s.program with
  | done => exact ⟨s, hostTurn_of_done hp, h⟩
  | wr off v rest =>
    obtain ⟨haccess, hrest⟩ := Bool.and_eq_true_iff.mp (hp ▸ h)
    obtain ⟨hin, halign⟩ := access_bounds haccess
    exact ⟨_, hostTurn_of_wr hp hin halign, by simpa using hrest⟩
  | rd off e rest =>
    obtain ⟨haccess, hrest⟩ := Bool.and_eq_true_iff.mp (hp ▸ h)
    obtain ⟨hin, halign⟩ := access_bounds haccess
    exact ⟨_, hostTurn_of_rd hp hin halign, by simpa using hrest⟩
  | poll off m v rest =>
    obtain ⟨haccess, hrest⟩ := Bool.and_eq_true_iff.mp (hp ▸ h)
    obtain ⟨hin, halign⟩ := access_bounds haccess
    obtain ⟨-, hprog⟩ := pollNext_busRead off m v rest s
    refine ⟨_, hostTurn_of_poll hp hin halign, ?_⟩
    rw [hprog]
    split_ifs
    · exact hrest
    · exact h
  | rep n body rest =>
    obtain ⟨hbody, hrest⟩ := Bool.and_eq_true_iff.mp (hp ▸ h)
    cases n with
    | zero => exact ⟨_, hostTurn_of_rep_zero hp, hrest⟩
    | succ n =>
      refine ⟨_, hostTurn_of_rep_succ hp, ?_⟩
      simp only [HostProgram.wellFormed_append, HostProgram.wellFormed, hbody, hrest, Bool.and_self]
  | bus a rest =>
    obtain ⟨haccess, hrest⟩ := Bool.and_eq_true_iff.mp (hp ▸ h)
    refine ⟨_, (hostTurn_of_bus hp).trans (hostAccess_of_wellFormed haccess _), ?_⟩
    cases a.write with
    | none => simpa using hrest
    | some v => simpa using hrest

/-! ### Every accepted operation completes -/

/-- The engine completes within `n + 1` steps (rule R227). -/
def CompletesWithin (n : Nat) (s : State) : Prop :=
  ∃ (k : Nat) (t : State), k ≤ n ∧ core.run (k + 1) s = .next t ∧ t.busy = false ∧ t.done = true

/-- The turn of a RUNNING engine completes at once (rule R221). -/
theorem completesWithin_of_engineTurn {s u : State} (hstep : step s = engineTurn u) (hb : u.busy = true) (n : Nat) :
    CompletesWithin n s := by
  obtain ⟨t, ht⟩ := completionStep_ends u
  obtain ⟨e, m, -, -, hcomp⟩ := completionStep_completed ht
  have hnext : step s = .next t := hstep.trans ((engineTurn_running hb).trans ht)
  exact ⟨0, t, Nat.zero_le n, run_succ core 0 s t hnext, hcomp.busy, hcomp.done⟩

/-- Any other step puts the completion off by one. -/
theorem CompletesWithin.of_step {s u : State} {n : Nat} (hstep : step s = .next u) (h : CompletesWithin n u) :
    CompletesWithin (n + 1) s := by
  obtain ⟨k, t, hk, hrun, hbusy, hdone⟩ := h
  exact ⟨k + 1, t, Nat.succ_le_succ hk, (run_succ core (k + 1) s u hstep).trans hrun, hbusy, hdone⟩

/-- A RUNNING engine stays RUNNING through the host's turns (rule R47), which a well-formed program never stops, until
its own turn comes: at the latest once the schedule is used up. -/
theorem completesWithin_turns (ts : List Turn) {s : State} (hts : s.turns = ts) (hb : s.busy = true)
    (hwf : s.program.wellFormed = true) (hnr : ∀ x ∈ ts, x ≠ Turn.reset) : CompletesWithin ts.length s := by
  induction ts generalizing s with
  | nil => exact completesWithin_of_engineTurn (step_of_nil_busy hts hb) hb _
  | cons x ts ih =>
    cases x with
    | host =>
      obtain ⟨u, hu, huwf⟩ := hostTurn_of_wellFormed (s := { s with turns := ts }) hwf
      obtain ⟨-, hub, -⟩ := hostCannotChangeARunningOperation { s with turns := ts } u hb hu
      exact (ih (hostTurn_turns hu) hub huwf fun x hx => hnr x (List.mem_cons_of_mem _ hx)).of_step
        ((step_of_host hts).trans hu)
    | engine => exact completesWithin_of_engineTurn (step_of_engine hts) hb _
    | reset => exact absurd rfl (hnr .reset List.mem_cons_self)

/-- Settles O29, by induction on the schedule. -/
theorem everyAcceptedOperationCompletes : Obligations.EveryAcceptedOperationCompletes := by
  unfold Obligations.EveryAcceptedOperationCompletes
  intro s hb hwf hnr
  exact completesWithin_turns s.turns rfl hb hwf hnr

/-! ### The reset input -/

theorem step_of_reset {s : State} {ts : List Turn} (h : s.turns = .reset :: ts) :
    step s = .next (resetInput { s with turns := ts }) := by
  simp [step, h]

theorem cfgWord_resetInput (s : State) : cfgWord (resetInput s) = 0#32 := by
  simp only [cfgWord, resetInput_ie, resetInput_k1len, resetInput_k2len]
  rfl

/-- After reset no byte of DIN and DOUT is written, so each reads as the fresh draw (rule R48, log entry 2). -/
theorem readByte_resetInput (s : State) (a : Nat) : readByte (resetInput s) a = Config.bufferDraw (s.resets + 1) a := by
  simp only [readByte, resetInput_mem, resetInput_resets, Memory.written, Option.getD_none]

/-- Settles O51: the step is `resetInput`, whose fields are read off one by one; `irq` is low since DONE is. -/
theorem resetInputResetsTheEngine : Obligations.ResetInputResetsTheEngine := by
  unfold Obligations.ResetInputResetsTheEngine
  intro s ts hts
  have hirq : (resetInput { s with turns := ts }).irq = false := irq_eq_false_of_done (by simp)
  exact ⟨_, step_of_reset hts, resetInput_busy _, resetInput_done _, resetInput_cmdLost _, resetInput_wrIgn _,
    resetInput_err _, cfgWord_resetInput _, resetInput_len _, resetInput_key1 _, resetInput_key2 _, resetInput_tweak _,
    resetInput_hidCmd _, resetInput_scratch _, hirq, readByte_resetInput _, resetInput_program _, resetInput_turns _⟩

/-! ### Writes to the inputs while BUSY = 1 -/

theorem writeKind_of_inputOffset {off : Nat} (h : InputOffset off) : (busReg off).writeKind = .input := by
  have hcovers := busReg_covers off
  unfold InputOffset at h
  cases hr : busReg off with
  | cfg | len | key1 | key2 | tweak | din => rfl
  | id | status | cmd | dumax | dout | reserved =>
    simp only [hr, BusReg.covers, List.mem_cons, List.not_mem_nil] at hcovers
    omega

/-- A write to an input is ignored with WR_IGN while BUSY = 1 (rules R188, R222). -/
theorem busWrite_input_busy {off : Nat} (hk : (busReg off).writeKind = .input) (v : Word) {s : State}
    (hb : s.busy = true) : busWrite off v s = setWrIgn s := by
  have hignored : ∀ store, writeInput store s = setWrIgn s := fun store => by simp [writeInput, hb]
  unfold busWrite
  cases hr : busReg off with
  | cfg | len | key1 | key2 | tweak | din => exact hignored _
  | id | status | cmd | dumax | dout | reserved => simp [hr, BusReg.writeKind] at hk

/-- Settles O38: WR_IGN is no input. -/
theorem inputWriteWhileBusyIsIgnored : Obligations.InputWriteWhileBusyIsIgnored := by
  unfold Obligations.InputWriteWhileBusyIsIgnored
  intro off v s hb hoff
  rw [busWrite_input_busy (writeKind_of_inputOffset hoff) v hb]
  exact ⟨rfl, sameInputs_of_flags_and_host s s.done s.cmdLost true s.program s.lastRead s.rdMismatch s.busyDoutReads⟩

/-! ### Reads while BUSY = 1 -/

/-- Settles O43: the two cases of a DOUT read. -/
theorem doutReadWhileBusyIsFree : Obligations.DoutReadWhileBusyIsFree := by
  unfold Obligations.DoutReadWhileBusyIsFree
  intro off s hlo hhi
  have hr := busReg_of_doutOffset hlo hhi
  refine ⟨fun hb => ⟨?_, ?_⟩, fun hb => ⟨?_, ?_⟩⟩
  · simp [busReadValue, hr, hb]
  · simp [busRead, hr, hb]
  · simp [busReadValue, hr, hb]
  · simp [busRead, hr, hb]

/-- The offsets of DIN (rule R21). -/
theorem busReg_of_dinOffset {off : Nat} (hlo : 0x1000 ≤ off) (hhi : off ≤ 0x1FFC) : busReg off = .din :=
  (busReg_eq_iff off .din).mpr (show off / 0x1000 = 1 by omega)

/-- Byte lane `b` of a word is byte `b` of the bytes it packs (rule R64). -/
theorem extractLsb'_wordOfBytes {bs : List Byte} (h : bs.length = 4) {b : Nat} (hb : b < bs.length) :
    (wordOfBytes bs).extractLsb' (8 * b) 8 = bs[b] := by
  rw [← wordBytes_getElem (wordOfBytes bs) b (by simpa [h] using hb)]
  simp only [wordBytes_wordOfBytes h]

/-- A DIN read gives the four stored bytes, lane by lane (rules R39, R64). -/
theorem busReadValue_din_lane {off b : Nat} (hlo : 0x1000 ≤ off) (hhi : off ≤ 0x1FFC) (hb : b < 4) (s : State) :
    (busReadValue off s).extractLsb' (8 * b) 8 = readByte s (off + b) := by
  have hb' : b < (readBytes s off 4).length := by simpa using hb
  simp only [busReadValue, busReg_of_dinOffset hlo hhi]
  rw [extractLsb'_wordOfBytes (by simp) hb', readBytes_getElem]

theorem busReadValue_tweak (j : Fin 4) (s : State) : busReadValue (0x0080 + 4 * j) s = s.tweak[j] := by
  simp only [busReadValue, busReg_tweak]

/-- CFG field by field (rule R31). -/
theorem cfgWord_fields (s : State) :
    (cfgWord s).extractLsb' 0 2 = s.k1len ∧ (cfgWord s).extractLsb' 2 2 = s.k2len ∧
      (cfgWord s).getLsbD 8 = s.ie ∧ cfgWord s &&& 0xFFFFFEF0#32 = 0#32 := by
  refine ⟨?_, ?_, (cfgWord_getLsbD s 8).trans (by simp), ?_⟩ <;> apply BitVec.eq_of_getLsbD_eq <;> intro i hi
  · rw [BitVec.getLsbD_extractLsb', cfgWord_getLsbD, if_pos (by omega)]
    simp [hi]
  · rw [BitVec.getLsbD_extractLsb', cfgWord_getLsbD, if_neg (by omega), if_pos (by omega)]
    simp [hi]
  · have hmask : ∀ i < 32, (0xFFFFFEF0#32).getLsbD i = decide (4 ≤ i ∧ i ≠ 8) := by decide
    rw [BitVec.getLsbD_and, cfgWord_getLsbD, hmask i hi, BitVec.getLsbD_zero]
    split_ifs <;> grind

/-- Settles O54: of these reads only STATUS depends on BUSY = 1, and there the invariant makes DONE 0. -/
theorem readsWhileBusy : Obligations.ReadsWhileBusy := by
  unfold Obligations.ReadsWhileBusy
  intro s hs hb
  obtain ⟨hbusy, hdone, hlost, hign, herr, -⟩ := statusWordLayout s
  have hnotDone : s.done = false := Bool.eq_false_iff.mpr fun hd => hs.phase ⟨hb, hd⟩
  have hreserved : ∀ off, ReservedOffset off → busReadValue off s = 0#32 := fun off hoff => by
    simp [busReadValue, busReg_of_reservedOffset hoff]
  exact ⟨⟨hbusy.trans hb, hdone.trans hnotDone, hlost, hign, herr⟩, rfl, cfgWord_fields s, busReadValue_len s, rfl,
    fun j => busReadValue_tweak j s, fun off b hlo hhi hb4 => busReadValue_din_lane hlo hhi hb4 s,
    fun off hlo hhi => busReadValue_of_keyOffset hlo hhi s, busReadValue_cmd s, hreserved⟩

end Sys2Proof.Machine
end
